-- ==== Sys2Proof/Word.lean ====
section
/-!
DEFINITION. The word types of the core: the byte of the byte memories (20_memory R41), the command word
(30_encoding R70), and the widths the spec gives the operands (30_encoding R71, R74).
-/

namespace Sys2Proof

/-- A byte is 8 bits (20_memory R41). -/
abbrev Byte := BitVec 8

/-- A command is one 32-bit word, a value and not bytes in a memory (30_encoding R70). -/
abbrev CommandWord := BitVec 32

/-- The operand `n` of `DERIVE`: `IMM[8:0]` (30_encoding R71). -/
abbrev AlphabetSize := BitVec 9

/-- The operand `code` of `PACKI` and the register `CODE`: 16 bits (30_encoding R71, 10_state R17). -/
abbrev CodeWord := BitVec 16

/-- The operand `len` of `PACKI`: `LF[4:0]` (30_encoding R71). -/
abbrev LengthField := BitVec 5

end Sys2Proof
end

