-- ==== Sys2Proof/Syntax.lean ====
section
/-!
DEFINITION. The ten commands of 30_encoding R72 as one inductive type, and the reasons a 32-bit word spells none of
them (30_encoding R73).
-/

namespace Sys2Proof

/-- The opcode map of 30_encoding R72: "The command set ... is the whole of it" (00_scope R1). Each operand has the
width of its field (R74). -/
inductive Instr where
  /-- `DERIVE n`, format N (40_parameter_deriver R80). -/
  | derive (n : AlphabetSize)
  /-- `ENCSYM s`, format S (41_symbol_encoder R90). -/
  | encsym (sym : Byte)
  /-- `BSCLR`, format Z (42_bitstream_packer R101). -/
  | bsclr
  /-- `PACK`, format Z (42_bitstream_packer R102). -/
  | pack
  /-- `PACKI code, len`, format C (42_bitstream_packer R103). -/
  | packi (code : CodeWord) (len : LengthField)
  /-- `SERIALIZE`, format Z (42_bitstream_packer R104). -/
  | serialize
  /-- `DESERIALIZE`, format Z (42_bitstream_packer R105). -/
  | deserialize
  /-- `DECSYM`, format Z (43_symbol_decoder R120). -/
  | decsym
  /-- `ENCODE`, format Z (44_composite_operations R130). -/
  | encode
  /-- `DECODE`, format Z (44_composite_operations R131). -/
  | decode
  deriving DecidableEq, Repr

/-- Why a word spells no command (30_encoding R73). -/
inductive DecodeReject where
  /-- `OP` is `0x0` or `0xB` to `0xF`. -/
  | reservedOp (op : Nat)
  /-- A must-be-zero bit of the format is set. -/
  | mustBeZero (op : Nat)
  deriving DecidableEq, Repr

end Sys2Proof
end

