-- ==== Sys2Proof/WellFormed.lean ====
section
/-!
DEFINITION. Which instructions have an operand the command accepts. 30_encoding R73: "Two kinds of word do spell a
command and fault for their operand value, not their spelling": `DERIVE` with `n = 0` or `n` from 257, `PACKI` with
`len` from 17. Every term of `Instr` has an encoding, so no check is needed for the encoder.
-/

namespace Sys2Proof

/-- The operand is in the range the command's preconditions give it (30_encoding R73, 40_parameter_deriver R80,
42_bitstream_packer R103). The symbol of `ENCSYM` is checked against a register, so it is no check of syntax. -/
def Instr.wellFormed : Instr → Bool
  | .derive n => decide (1 ≤ n.toNat ∧ n.toNat ≤ 256)
  | .encsym _ => true
  | .bsclr => true
  | .pack => true
  | .packi _ len => decide (len.toNat ≤ 16)
  | .serialize => true
  | .deserialize => true
  | .decsym => true
  | .encode => true
  | .decode => true

end Sys2Proof
end

