-- ==== Sys2Proof/Decode.lean ====
section
/-!
DEFINITION. The decoder of command words (30_encoding R70 to R74) and the encoder (30_encoding R75). A command word is
a value written to a port (20_memory R45), so the decoder takes a 32-bit word and there is no byte order.
-/

namespace Sys2Proof

/-- `w[hi:lo]` as a natural number (00_scope R38, slices). -/
def field (w : CommandWord) (hi lo : Nat) : Nat :=
  w.toNat / 2 ^ lo % 2 ^ (hi - lo + 1)

/-- Answers `i` when the must-be-zero field `z` of the word is zero (30_encoding R71, R73). -/
def whenZero (op z : Nat) (i : Instr) : Except DecodeReject Instr :=
  if z = 0 then .ok i else .error (.mustBeZero op)

/-- "A decoder reads `OP` first, which fixes the format, then checks the must-be-zero bits of that format, then
extracts the operands" (30_encoding R72; operands as R74 gives them). Total; a word that spells no command is
rejected by name (R73). -/
def decode (w : CommandWord) : Except DecodeReject Instr :=
  match field w 31 28 with
  | 1 => whenZero 1 (field w 27 9) (.derive (BitVec.ofNat 9 (field w 8 0)))
  | 2 => whenZero 2 (field w 27 8) (.encsym (BitVec.ofNat 8 (field w 7 0)))
  | 3 => whenZero 3 (field w 27 0) .bsclr
  | 4 => whenZero 4 (field w 27 0) .pack
  | 5 => whenZero 5 (field w 27 21) (.packi (BitVec.ofNat 16 (field w 15 0)) (BitVec.ofNat 5 (field w 20 16)))
  | 6 => whenZero 6 (field w 27 0) .serialize
  | 7 => whenZero 7 (field w 27 0) .deserialize
  | 8 => whenZero 8 (field w 27 0) .decsym
  | 9 => whenZero 9 (field w 27 0) .encode
  | 10 => whenZero 10 (field w 27 0) .decode
  | op => .error (.reservedOp op)

/-- The word of a command as a number: the column "word" of the table of 30_encoding R75. -/
def encodeNat : Instr → Nat
  | .derive n => 0x10000000 + n.toNat
  | .encsym sym => 0x20000000 + sym.toNat
  | .bsclr => 0x30000000
  | .pack => 0x40000000
  | .packi code len => 0x50000000 + len.toNat * 2 ^ 16 + code.toNat
  | .serialize => 0x60000000
  | .deserialize => 0x70000000
  | .decsym => 0x80000000
  | .encode => 0x90000000
  | .decode => 0xA0000000

/-- The command word of an instruction (30_encoding R75). -/
def encode (i : Instr) : CommandWord :=
  BitVec.ofNat 32 (encodeNat i)

/-- The instruction the decoder reads from a word given by its bits, `nbits` of them, every higher bit 0. There is
one length, 32 bits (30_encoding R77), so a number that does not fit 32 bits is no command word. -/
def decodeTableWord (nbits w : Nat) : Option Instr :=
  if w % 2 ^ nbits < 2 ^ 32 then
    match decode (BitVec.ofNat 32 (w % 2 ^ nbits)) with
    | .ok i => some i
    | .error _ => none
  else none

end Sys2Proof
end

