-- ==== Sys2Proof/Config.lean ====
section
/-!
DEFINITION. What the spec leaves open: the three capacities (00_scope R5), and the free values that stand for "every
other piece of state becomes unspecified" after a fault (60_exceptions R166).
-/

namespace Sys2Proof

/-- A capacity is "a natural number or `unbounded`" (00_scope R5); `none` is unbounded. -/
abbrev Capacity := Option Nat

/-- The three capacities (00_scope R5). 10_state R32: they are configuration and not state. `State` carries them as a
field that nothing writes, so that a statement over all states holds for every choice (log entry 4, DESIGN CHOICE,
safe for such statements). -/
structure Caps where
  /-- `IBUF_CAP`: largest `ILEN`. -/
  ibuf : Capacity
  /-- `OBUF_CAP`: largest `OLEN`. -/
  obuf : Capacity
  /-- `BS_CAP`: largest `BLEN`. -/
  bs : Capacity
  deriving DecidableEq, Repr

namespace Config

/-- The default and "recommended instantiation": all three unbounded (00_scope R5). -/
def defaultCaps : Caps := ⟨none, none, none⟩

/-- What undefined hardware behaviour leaves in the state (60_exceptions R166): one value for each piece of state but
the fault mark. -/
structure Unspecified where
  prN : BitVec 9
  prM : BitVec 4
  prPL : BitVec 8
  prPT : BitVec 9
  code : CodeWord
  len : BitVec 8
  symo : Byte
  cur : Nat
  pv : Bool
  rv : Bool
  sv : Bool
  bs : List Bool
  ibuf : List Byte
  obuf : List Byte
  deriving DecidableEq, Repr, Inhabited

/-- The free values after the `k`-th fault: nothing constrains them (60_exceptions R166; 93_implementation_defined V11,
"any value"). Log entry 5. -/
opaque unspecified (k : Nat) : Unspecified

end Config

end Sys2Proof
end

