-- ==== Sys2Proof/Machine/State.lean ====
section
/-!
DEFINITION. The state of the core (10_state R10), the eleven fault causes (60_exceptions R162), the host's actions and
what they return (10_state R35), what stands outside the core (10_state R32), and the state after reset (10_state R33).
-/

namespace Sys2Proof.Machine

/-- The memory an append found full: the info of `F_CAP` (60_exceptions R162). -/
inductive Space where
  | bs
  | obuf
  deriving DecidableEq, Repr

/-- The fault causes with the info each records (60_exceptions R162). A command that raises one has a NEXT state, in
which `FAULT` holds the cause and everything else is unspecified (R166): the hardware detects nothing (R160), the
cause only marks that undefined behaviour was reached. -/
inductive Cause where
  /-- 1, any write to `CMD`: the word spells no command. -/
  | fIllcmd (word : CommandWord)
  /-- 2, `ENCSYM`, `DECSYM`, `ENCODE`, `DECODE`: no `DERIVE` since reset. -/
  | fNoparam
  /-- 3, `PACK`: no `ENCSYM` since reset. -/
  | fNovalue
  /-- 4, `DERIVE`: `n = 0` or `n > 256`. -/
  | fN (n : AlphabetSize)
  /-- 5, `ENCSYM`, `ENCODE`: symbol not below `PR.N`; "for `ENCODE` also its index in `IBUF`". -/
  | fSym (sym : Byte) (index : Option Nat)
  /-- 6, `PACKI`: `len > 16`. -/
  | fLen (len : LengthField)
  /-- 7, an append at the capacity of `BS` or `OBUF`. -/
  | fCap (space : Space)
  /-- 8, `DESERIALIZE`, `DECODE`: `ILEN = 0`. -/
  | fNohdr
  /-- 9, `DESERIALIZE`, `DECODE`: header above 7, or not 0 with no payload. -/
  | fHdr (header : Byte)
  /-- 10, `DECSYM`: `CUR = BLEN`. -/
  | fEos
  /-- 11, `DECSYM`, `DECODE`: the sequence ends inside the codeword at `CUR`. -/
  | fTrunc (cur : Nat)
  deriving DecidableEq, Repr

/-- What the host does to the core: the actions of 10_state R35, and the pseudo-directive `.xfer` of 30_encoding
R76. -/
inductive HostAction where
  /-- Write a 32-bit command word to `CMD` (10_state R24). -/
  | command (word : CommandWord)
  /-- `LOAD bytes`. -/
  | load (bytes : List Byte)
  /-- `.xfer`: `LOAD` of a copy of the current `OBUF`. -/
  | xfer
  /-- Read the register of this number (10_state R27). -/
  | readRegister (number : Nat)
  /-- Read `IBUF`. -/
  | readIbuf
  /-- Read `OBUF`. -/
  | readObuf
  /-- Read `BS`. -/
  | readBs
  /-- Reset (70_reset R180). -/
  | reset
  deriving DecidableEq, Repr

/-- What a host action returns to the host (10_state R35). -/
inductive Answer where
  /-- A register's value, zero-extended (10_state R27). -/
  | value (v : Nat)
  /-- The register's valid bit is 0: it holds no value (10_state R22; 93_implementation_defined V6). -/
  | noValue
  /-- The contents of a byte memory. -/
  | bytes (bs : List Byte)
  /-- The contents of `BS`. -/
  | bits (bs : List Bool)
  /-- The action was refused: "not performed, state unchanged" (93_implementation_defined V9, V10). -/
  | refused
  deriving DecidableEq, Repr

/-- Why the model has no next state. Closed. -/
inductive Fault where
  /-- Raised by `DECODE` only: its loop never ends (`PR.M = 0`, non-empty bit sequence, `OBUF` unbounded;
  44_composite_operations R133: "no successor state"). Safe: no claim can be made past it (log entry 7). -/
  | neverReturns
  deriving DecidableEq, Repr

/-- Why the model gives an instruction no meaning. Closed. -/
inductive Refusal where
  /-- An instruction that has no meaning yet, by its mnemonic; no arm of `exec` answers it any more. Safe: nothing can
  be proved past it. -/
  | notModelled (mnemonic : String)
  deriving DecidableEq, Repr

/-- The whole architectural state of the core: exactly the fields of 10_state R10, the lengths `BLEN`, `ILEN`, `OLEN`
merged with the sequences they measure as R10 allows (log entry 8). -/
structure ArchState where
  /-- `PR.N`, alphabet size (10_state R11). -/
  prN : BitVec 9
  /-- `PR.M`, short code length (10_state R12). -/
  prM : BitVec 4
  /-- `PR.PL`, number of long prefixes (10_state R13). -/
  prPL : BitVec 8
  /-- `PR.PT`, threshold (10_state R14). -/
  prPT : BitVec 9
  /-- `CODE` (10_state R17). -/
  code : CodeWord
  /-- `LEN` (10_state R18). -/
  len : BitVec 8
  /-- `SYMO` (10_state R19). -/
  symo : Byte
  /-- `CUR`, a bit index into `BS` (10_state R21). -/
  cur : Nat
  /-- `PV`: the parameter registers hold values (10_state R22). -/
  pv : Bool
  /-- `RV`: `CODE` and `LEN` hold values (10_state R22). -/
  rv : Bool
  /-- `SV`: `SYMO` holds a value (10_state R22). -/
  sv : Bool
  /-- `BS`, index 0 first (10_state R28: "a model represents `BS` as a list"). -/
  bs : List Bool
  /-- `IBUF`, index 0 first (10_state R29; log entry 9). -/
  ibuf : List Byte
  /-- `OBUF`, index 0 first (10_state R30; log entry 9). -/
  obuf : List Byte
  /-- `FAULT` (10_state R31). -/
  fault : Option Cause
  deriving DecidableEq, Repr

/-- What 10_state R32 says is not state and a model "takes ... as parameters or leaves ... outside": the capacities and
the sequence of host actions; and with them what the host was told and the numbering of the free values. No field of it
is part of the spec's state; no command that ends without fault writes it, and of it the pseudocode of a command reads
the capacities only (log entry 21). -/
structure Environment where
  /-- The capacities, parameters of the model (00_scope R5; log entry 4). Nothing writes them. -/
  caps : Caps
  /-- The host's further actions, the next one first: the input of the step relation (log entry 1). -/
  host : List HostAction
  /-- What the last host action returned (log entry 10). -/
  answer : Option Answer
  /-- How many free values have been drawn (log entry 5). -/
  draws : Nat
  deriving DecidableEq, Repr

/-- What the host's interface steps: the core's state, and beside it what is outside the core, because a step is a
function of one argument (log entry 21). -/
structure State extends ArchState, Environment where
  deriving DecidableEq, Repr

/-- The state of the core after reset (10_state R33). The data registers hold "no value" there; the model stores 0 (log
entry 3, DESIGN CHOICE, unsafe). -/
def ArchState.reset : ArchState where
  prN := 0
  prM := 0
  prPL := 0
  prPT := 0
  code := 0
  len := 0
  symo := 0
  cur := 0
  pv := false
  rv := false
  sv := false
  bs := []
  ibuf := []
  obuf := []
  fault := none

/-- The state after reset in a core with the given capacities, with no host action yet. -/
def State.resetWith (caps : Caps) : State where
  toArchState := ArchState.reset
  caps := caps
  host := []
  answer := none
  draws := 0

/-- The state after reset (10_state R33), capacities unbounded (00_scope R5, the default). -/
def State.reset : State := State.resetWith Config.defaultCaps

/-- `BLEN`, the number of bits in `BS` (10_state R26). -/
@[simp] abbrev State.blen (s : State) : Nat := s.bs.length

/-- `ILEN`, the number of bytes in `IBUF` (10_state R26). -/
@[simp] abbrev State.ilen (s : State) : Nat := s.ibuf.length

/-- `OLEN`, the number of bytes in `OBUF` (10_state R26). -/
@[simp] abbrev State.olen (s : State) : Nat := s.obuf.length

end Sys2Proof.Machine
end

