-- ==== Sys2Proof/Machine/Ops.lean ====
section
/-!
DEFINITION. The named operations: how a command ends, the writes of registers and memories, bits and bytes, the
appends, taking a fault and the reset that alone clears it.
-/

namespace Sys2Proof.Machine

/-- How the pseudocode of a command ends: it runs to its end, it raises a cause and "nothing after it is executed"
(00_scope R38), or it never ends (44_composite_operations R133). -/
inductive Result where
  | done (s : State)
  | raised (c : Cause)
  | endless
  deriving DecidableEq, Repr

/-- Statements "run in the order written" (00_scope R38): the rest runs only when the first part is done. -/
def Result.andThen (r : Result) (rest : State → Result) : Result :=
  match r with
  | .done s => rest s
  | .raised c => .raised c
  | .endless => .endless

/-! ### Writes -/

/-- `DERIVE`'s write: the four parameter registers and `PV` (40_parameter_deriver R80). -/
def State.writeParams (s : State) (n m pl pt : Nat) : State :=
  { s with prN := BitVec.ofNat 9 n, prM := BitVec.ofNat 4 m, prPL := BitVec.ofNat 8 pl, prPT := BitVec.ofNat 9 pt,
           pv := true }

/-- `ENCSYM`'s write: `CODE`, `LEN` and `RV` (41_symbol_encoder R90). -/
def State.writePair (s : State) (code len : Nat) : State :=
  { s with code := BitVec.ofNat 16 code, len := BitVec.ofNat 8 len, rv := true }

/-- `DECSYM`'s write: `SYMO`, `SV`, and `CUR` advanced by `adv` (43_symbol_decoder R120). -/
def State.writeSymbol (s : State) (sym adv : Nat) : State :=
  { s with symo := BitVec.ofNat 8 sym, sv := true, cur := s.cur + adv }

/-- `BS <- bits` (and with it `BLEN`). -/
def State.writeBs (s : State) (bits : List Bool) : State :=
  { s with bs := bits }

/-- `CUR <- c`. -/
def State.writeCur (s : State) (c : Nat) : State :=
  { s with cur := c }

/-- `OBUF <- bytes` (and with it `OLEN`). -/
def State.writeObuf (s : State) (bytes : List Byte) : State :=
  { s with obuf := bytes }

/-- `IBUF <- bytes` (and with it `ILEN`): the host's `LOAD` only (10_state R29). -/
def State.writeIbuf (s : State) (bytes : List Byte) : State :=
  { s with ibuf := bytes }

/-- What the current host action returns to the host. -/
def State.reply (s : State) (a : Answer) : State :=
  { s with answer := some a }

/-- The host's next action is taken from its list; what the last one returned is gone. -/
def State.takeAction (s : State) (rest : List HostAction) : State :=
  { s with host := rest, answer := none }

/-! ### Memories -/

/-- Whether a sequence may have length `n` under a capacity (00_scope R5; log entry 11, DEDUCED). -/
def admits (cap : Capacity) (n : Nat) : Bool :=
  match cap with
  | none => true
  | some k => decide (n ≤ k)

/-- `MemRead(space, a, 1)`: "defined only for `a` below the space's length" (00_scope R38). What an index that is not
there reads as: nothing (20_memory R51; 93_implementation_defined V10). -/
def memRead (space : List Byte) (a : Nat) : Option Byte :=
  space[a]?

/-- `BsBit(i)`: "defined only for `i < BLEN`" (00_scope R38). -/
def bsBit (bits : List Bool) (i : Nat) : Option Bool :=
  bits[i]?

/-- `BsAppend(b)` (00_scope R38): raises `F_CAP` at `BS_CAP`. -/
def bsAppend (b : Bool) (s : State) : Result :=
  if admits s.caps.bs (s.blen + 1) then .done (s.writeBs (s.bs ++ [b])) else .raised (.fCap .bs)

/-- `ObufAppend(v)` (00_scope R38): raises `F_CAP` at `OBUF_CAP`. -/
def obufAppend (v : Byte) (s : State) : Result :=
  if admits s.caps.obuf (s.olen + 1) then .done (s.writeObuf (s.obuf ++ [v])) else .raised (.fCap .obuf)

/-- `BsAppend` of each bit of a list, the first one first. -/
def bsAppendAll : List Bool → State → Result
  | [], s => .done s
  | b :: bits, s => (bsAppend b s).andThen (bsAppendAll bits)

/-- `ObufAppend` of each byte of a list, the first one first. -/
def obufAppendAll : List Byte → State → Result
  | [], s => .done s
  | v :: bytes, s => (obufAppend v s).andThen (obufAppendAll bytes)

/-- The low `len` bits of `code`, "most significant of the `length` bits" first (42_bitstream_packer R100, 20_memory
R43). -/
def codeBits (code : CodeWord) : Nat → List Bool
  | 0 => []
  | j + 1 => code.getLsbD j :: codeBits code j

/-- `Append(code, len)` (42_bitstream_packer R100). -/
def append (code : CodeWord) (len : Nat) (s : State) : Result :=
  bsAppendAll (codeBits code len) s

/-- The unsigned value of a list of bits, the first one the most significant: the loop of 43_symbol_decoder R121. -/
def bitsValue (bits : List Bool) : Nat :=
  bits.foldl (fun v b => 2 * v + b.toNat) 0

/-- `ReadBits(pos, w)`, for `pos + w ≤ BLEN` (43_symbol_decoder R121; log entry 14, DEDUCED). -/
def readBits (bits : List Bool) (pos w : Nat) : Nat :=
  bitsValue ((bits.drop pos).take w)

/-- The eight bits of a byte, bit 7 first (20_memory R42). -/
def byteBits (v : Byte) : List Bool :=
  [v.getLsbD 7, v.getLsbD 6, v.getLsbD 5, v.getLsbD 4, v.getLsbD 3, v.getLsbD 2, v.getLsbD 1, v.getLsbD 0]

/-- The bits of a list of bytes, "MSB-first per byte", bytes in ascending order (20_memory R44). -/
def bytesBits (bytes : List Byte) : List Bool :=
  bytes.flatMap byteBits

/-- `ceil_div(a, 8)` (00_scope R38). -/
def ceilDiv8 (a : Nat) : Nat := (a + 8 - 1) / 8

/-- The header of a bit sequence of length `n`: `unused` of 42_bitstream_packer R104. -/
def unusedBits (n : Nat) : Nat := (8 - n % 8) % 8

/-- Payload byte `q` of a bit sequence: bit `8 * q + j` at bit `7 - j`, "padding bits are 0"
(42_bitstream_packer R104). -/
def payloadByte (bits : List Bool) (q : Nat) : Byte :=
  BitVec.ofNat 8 (bitsValue ((List.range 8).map fun j => (bsBit bits (8 * q + j)).getD false))

/-- The serialized buffer of a bit sequence: header, then payload (30_encoding R67, 42_bitstream_packer R104; log entry
13, DEDUCED). -/
def serialized (bits : List Bool) : List Byte :=
  BitVec.ofNat 8 (unusedBits bits.length) :: (List.range (ceilDiv8 bits.length)).map (payloadByte bits)

/-! ### Faults and reset -/

/-- The core's state with `FAULT` at a cause and every other piece at a given value. -/
def ArchState.faulted (c : Cause) (u : Config.Unspecified) : ArchState where
  prN := u.prN
  prM := u.prM
  prPL := u.prPL
  prPT := u.prPT
  code := u.code
  len := u.len
  symo := u.symo
  cur := u.cur
  pv := u.pv
  rv := u.rv
  sv := u.sv
  bs := u.bs
  ibuf := u.ibuf
  obuf := u.obuf
  fault := some c

/-- Fault entry (60_exceptions R166): `FAULT` gets the cause, "nothing is saved; no control goes anywhere", "every
other piece of state becomes unspecified": each field is a free value (log entry 5). The capacities and the host's
actions are outside the core and stay. -/
def takeFault (c : Cause) (s : State) : State :=
  { s with
    toArchState := ArchState.faulted c (Config.unspecified s.draws)
    answer := none
    draws := s.draws + 1 }

/-- Reset as the host applies it (70_reset R180): every piece of state at its value of 10_state R33. "There is no
return from a fault"; "Only reset clears `FAULT`" (60_exceptions R167). The capacities, the host's further actions and
the count of free values are outside the core and stay (log entry 12). -/
def applyReset (s : State) : State :=
  { s with toArchState := ArchState.reset, answer := none }

/-- Runs the pseudocode of a command, or of a host action other than reset, and ends it. In a faulted state it has no
defined result: the same fault is kept (60_exceptions R167, 93_implementation_defined V12; log entry 6). A cause that
is raised is taken (R166). A command that never ends has no next state (44_composite_operations R133; log entry 7). -/
def runCommand (body : State → Result) (s : State) : Host.Outcome State Fault Refusal :=
  match s.fault with
  | some c => .next (takeFault c s)
  | none =>
    match body s with
    | .done t => .next t
    | .raised c => .next (takeFault c s)
    | .endless => .fault .neverReturns

/-- The number of a cause (60_exceptions R162): "labels for the model only". -/
def causeNumber : Cause → Nat
  | .fIllcmd _ => 1
  | .fNoparam => 2
  | .fNovalue => 3
  | .fN _ => 4
  | .fSym _ _ => 5
  | .fLen _ => 6
  | .fCap _ => 7
  | .fNohdr => 8
  | .fHdr _ => 9
  | .fEos => 10
  | .fTrunc _ => 11

end Sys2Proof.Machine
end

