-- ==== Sys2Proof/Machine/Operands.lean ====
section
/-!
DEFINITION. The checks a command makes on its operand before it computes (60_exceptions R162, R165), made on the
numbers at their full value (45_laws R144).
-/

namespace Sys2Proof.Machine

/-- `DERIVE`'s operand must be 1 to 256, else `F_N` (40_parameter_deriver R80). -/
def requireAlphabet (n : AlphabetSize) (rest : State → Result) (s : State) : Result :=
  if n.toNat = 0 ∨ 256 < n.toNat then .raised (.fN n) else rest s

/-- A symbol must be below `PR.N`, else `F_SYM` with the symbol and, for `ENCODE`, its index (41_symbol_encoder R90,
R93; 60_exceptions R162). -/
def requireSymbol (sym : Byte) (index : Option Nat) (rest : State → Result) (s : State) : Result :=
  if s.prN.toNat ≤ sym.toNat then .raised (.fSym sym index) else rest s

/-- `PACKI`'s length must be at most 16, else `F_LEN` (42_bitstream_packer R103). -/
def requireLength (len : LengthField) (rest : State → Result) (s : State) : Result :=
  if 16 < len.toNat then .raised (.fLen len) else rest s

end Sys2Proof.Machine
end

