-- ==== Sys2Proof/Machine/Flags.lean ====
section
/-!
DEFINITION. The valid bits and the status view (10_state R22, R23, R25). The bits are set with the registers they
guard (`State.writeParams`, `State.writePair`, `State.writeSymbol` of Ops) and cleared by reset only.
-/

namespace Sys2Proof.Machine

/-- `EOS`: the predicate `CUR = BLEN` (10_state R23). -/
def State.eos (s : State) : Bool :=
  decide (s.cur = s.blen)

/-- `STATUS`: `PV`, `RV`, `SV`, `EOS` in bits 0 to 3, bits 31 to 4 read as 0 (10_state R25). -/
def State.status (s : State) : BitVec 32 :=
  BitVec.ofNat 32 (s.pv.toNat + 2 * s.rv.toNat + 4 * s.sv.toNat + 8 * s.eos.toNat)

/-- A command that reads a parameter register raises `F_NOPARAM` when `PV = 0` (10_state R22). -/
def requireParams (rest : State → Result) (s : State) : Result :=
  if s.pv then rest s else .raised .fNoparam

/-- `PACK` raises `F_NOVALUE` when `RV = 0` (10_state R22). -/
def requireValue (rest : State → Result) (s : State) : Result :=
  if s.rv then rest s else .raised .fNovalue

/-- A host read of a register: its value, or nothing when its valid bit is 0 (10_state R22, R35;
93_implementation_defined V6). -/
def guarded (valid : Bool) (v : Nat) : Answer :=
  if valid then .value v else .noValue

end Sys2Proof.Machine
end

