-- ==== Sys2Proof/Machine/BitStreamPacker.lean ====
section
/-!
DEFINITION. The Bit-Stream Packer: the commands `BSCLR`, `PACK`, `PACKI`, `SERIALIZE`, `DESERIALIZE`
(42_bitstream_packer).
-/

namespace Sys2Proof.Machine

/-- The pseudocode of `BSCLR` (42_bitstream_packer R101). -/
def clearBits (s : State) : Result :=
  .done ((s.writeBs []).writeCur 0)

/-- The pseudocode of `PACK` (42_bitstream_packer R102). -/
def packPair : State → Result :=
  requireValue fun s => append s.code s.len.toNat s

/-- The pseudocode of `PACKI code, len` (42_bitstream_packer R103). -/
def packImmediate (code : CodeWord) (len : LengthField) : State → Result :=
  requireLength len (append code len.toNat)

/-- The pseudocode of `SERIALIZE` (42_bitstream_packer R104): `OBUF` emptied, then the header and the payload bytes
appended in ascending order. -/
def serialize (s : State) : Result :=
  obufAppendAll (serialized s.bs) (s.writeObuf [])

/-- The bit sequence a serialized buffer holds: the payload's bits without the last `unused` ones, "dropped without
being examined" (42_bitstream_packer R105; its bit `i` is the one 20_memory R44 names). -/
def deserialized (unused : Nat) (payload : List Byte) : List Bool :=
  (bytesBits payload).take (8 * payload.length - unused)

/-- The pseudocode of `DESERIALIZE` (42_bitstream_packer R105), its checks in the order written. -/
def deserialize (s : State) : Result :=
  match s.ibuf with
  | [] => .raised .fNohdr
  | header :: payload =>
    if 7 < header.toNat then .raised (.fHdr header)
    else if payload.length = 0 ∧ 0 < header.toNat then .raised (.fHdr header)
    else (bsAppendAll (deserialized header.toNat payload) (s.writeBs [])).andThen fun t => .done (t.writeCur 0)

/-- `BSCLR` (42_bitstream_packer R101). -/
def execBsclr (s : State) : Host.Outcome State Fault Refusal :=
  runCommand clearBits s

/-- `PACK` (42_bitstream_packer R102). -/
def execPack (s : State) : Host.Outcome State Fault Refusal :=
  runCommand packPair s

/-- `PACKI code, len` (42_bitstream_packer R103). -/
def execPacki (code : CodeWord) (len : LengthField) (s : State) : Host.Outcome State Fault Refusal :=
  runCommand (packImmediate code len) s

/-- `SERIALIZE` (42_bitstream_packer R104). -/
def execSerialize (s : State) : Host.Outcome State Fault Refusal :=
  runCommand serialize s

/-- `DESERIALIZE` (42_bitstream_packer R105). -/
def execDeserialize (s : State) : Host.Outcome State Fault Refusal :=
  runCommand deserialize s

end Sys2Proof.Machine
end

