-- ==== Sys2Proof/Machine/SymbolDecoder.lean ====
section
/-!
DEFINITION. The Symbol Decoder: the command `DECSYM` (43_symbol_decoder).
-/

namespace Sys2Proof.Machine

/-- The pseudocode of `DECSYM` (43_symbol_decoder R120). In the long class the suffix bit is read with `BsBit`; it is
not there exactly when `rem < PR.M + 1`, the second `F_TRUNC` (R123). -/
def decodeSymbol : State → Result :=
  requireParams fun s =>
    if s.cur = s.blen then .raised .fEos
    else if s.blen - s.cur < s.prM.toNat then .raised (.fTrunc s.cur)
    else if readBits s.bs s.cur s.prM.toNat < s.prPT.toNat then
      .done (s.writeSymbol (readBits s.bs s.cur s.prM.toNat) s.prM.toNat)
    else
      match bsBit s.bs (s.cur + s.prM.toNat) with
      | none => .raised (.fTrunc s.cur)
      | some b =>
        .done (s.writeSymbol
          (s.prPT.toNat + (readBits s.bs s.cur s.prM.toNat - s.prPT.toNat) * 2 + b.toNat) (s.prM.toNat + 1))

/-- `DECSYM` (43_symbol_decoder R120). -/
def execDecsym (s : State) : Host.Outcome State Fault Refusal :=
  runCommand decodeSymbol s

end Sys2Proof.Machine
end

