-- ==== Sys2Proof/Machine/SymbolEncoder.lean ====
section
/-!
DEFINITION. The Symbol Encoder: the command `ENCSYM` (41_symbol_encoder).
-/

namespace Sys2Proof.Machine

/-- The `code` of a symbol under `m` and `pt`, masks kept as the source states them; `(base << 1) | (off mod 2)` is
`2 * base + off mod 2` (41_symbol_encoder R90, 45_laws R143; log entry 18, DEDUCED). -/
def symbolCode (m pt sym : Nat) : Nat :=
  if sym < pt then sym % 2 ^ m
  else 2 * ((pt + (sym - pt) / 2) % 2 ^ m) + (sym - pt) % 2

/-- The `len` of a symbol under `m` and `pt` (41_symbol_encoder R90). -/
def symbolLength (m pt sym : Nat) : Nat :=
  if sym < pt then m else m + 1

/-- The pseudocode of `ENCSYM s` (41_symbol_encoder R90); `index` is the symbol's index in `IBUF` when `ENCODE` runs
it, the info `F_SYM` then records (60_exceptions R162). -/
def encodeSymbol (index : Option Nat) (sym : Byte) : State → Result :=
  requireParams <| requireSymbol sym index fun s =>
    .done (s.writePair (symbolCode s.prM.toNat s.prPT.toNat sym.toNat) (symbolLength s.prM.toNat s.prPT.toNat sym.toNat))

/-- `ENCSYM s` (41_symbol_encoder R90). -/
def execEncsym (sym : Byte) (s : State) : Host.Outcome State Fault Refusal :=
  runCommand (encodeSymbol none sym) s

end Sys2Proof.Machine
end

