-- ==== Sys2Proof/Machine/Composite.lean ====
section
/-!
DEFINITION. The whole-buffer operations: the commands `ENCODE` and `DECODE`, each "exactly the sequence of primitive
commands its pseudocode names" (44_composite_operations R132).
-/

namespace Sys2Proof.Machine

/-- The counted loop of `ENCODE` over the bytes of `IBUF` from index `i` on: `ENCSYM`, then `PACK`
(44_composite_operations R130). -/
def encodeLoop : List Byte → Nat → State → Result
  | [], _, s => .done s
  | sym :: rest, i, s => (encodeSymbol (some i) sym s).andThen fun t => (packPair t).andThen (encodeLoop rest (i + 1))

/-- The pseudocode of `ENCODE` (44_composite_operations R130). -/
def encodeBuffer : State → Result :=
  requireParams fun s => (clearBits s).andThen fun t => (encodeLoop s.ibuf 0 t).andThen serialize

/-- The loop of `DECODE`, `while CUR < BLEN`: `DECSYM`, then `ObufAppend(SYMO)` (44_composite_operations R131). The
first argument bounds the iterations; `decodeFuel` is more than a loop that ends can take, so a loop that is still
running when it is used up never ends (R133, 70_reset R191). -/
def decodeLoop : Nat → State → Result
  | 0, s => if s.cur < s.blen then .endless else .done s
  | fuel + 1, s =>
    if s.cur < s.blen then
      (decodeSymbol s).andThen fun t => (obufAppend t.symo t).andThen (decodeLoop fuel)
    else .done s

/-- An iteration that moves the cursor happens at most `BLEN` times (70_reset R191); one that does not can happen
`OBUF_CAP` times before `F_CAP` (44_composite_operations R133). -/
def decodeFuel (s : State) : Nat :=
  s.blen + match s.caps.obuf with
    | none => 0
    | some k => k + 1

/-- The pseudocode of `DECODE` (44_composite_operations R131). -/
def decodeBuffer : State → Result :=
  requireParams fun s => (deserialize s).andThen fun t => decodeLoop (decodeFuel t) (t.writeObuf [])

/-- `ENCODE` (44_composite_operations R130). -/
def execEncode (s : State) : Host.Outcome State Fault Refusal :=
  runCommand encodeBuffer s

/-- `DECODE` (44_composite_operations R131). -/
def execDecode (s : State) : Host.Outcome State Fault Refusal :=
  runCommand decodeBuffer s

end Sys2Proof.Machine
end

