-- ==== Sys2Proof/Machine/ParameterDeriver.lean ====
section
/-!
DEFINITION. The Parameter Deriver: the command `DERIVE` (40_parameter_deriver).
-/

namespace Sys2Proof.Machine

/-- `floor_log2(n)` by halving, at most `fuel` times. -/
def floorLog2Fuel : Nat → Nat → Nat
  | 0, _ => 0
  | fuel + 1, n => if n < 2 then 0 else floorLog2Fuel fuel (n / 2) + 1

/-- `floor_log2(n)`, for `n ≥ 1`: "the largest natural number `k` with `2^k ≤ n`" (40_parameter_deriver R81). It has
no meaning at 0, where `DERIVE` faults before it would be used. -/
def floorLog2 (n : Nat) : Nat :=
  floorLog2Fuel n n

/-- The source's `p`: `n - 2^m` (40_parameter_deriver R80). -/
def longPrefixes (n : Nat) : Nat := n - 2 ^ floorLog2 n

/-- The source's `P`: `2^m - pl` (40_parameter_deriver R80). -/
def threshold (n : Nat) : Nat := 2 ^ floorLog2 n - longPrefixes n

/-- The pseudocode of `DERIVE n` (40_parameter_deriver R80). -/
def deriveParams (n : AlphabetSize) : State → Result :=
  requireAlphabet n fun s =>
    .done (s.writeParams n.toNat (floorLog2 n.toNat) (longPrefixes n.toNat) (threshold n.toNat))

/-- `DERIVE n` (40_parameter_deriver R80). -/
def execDerive (n : AlphabetSize) (s : State) : Host.Outcome State Fault Refusal :=
  runCommand (deriveParams n) s

end Sys2Proof.Machine
end

