-- ==== Sys2Proof/Machine/Dispatch.lean ====
section
/-!
DEFINITION. One arm per constructor of Instr (30_encoding R72).
-/

namespace Sys2Proof.Machine

/-- What a command does, in the order of the opcode map (30_encoding R72). -/
def exec (i : Instr) (s : State) : Host.Outcome State Fault Refusal :=
  match i with
  | .derive n => Sys2Proof.Machine.execDerive n s
  | .encsym sym => Sys2Proof.Machine.execEncsym sym s
  | .bsclr => Sys2Proof.Machine.execBsclr s
  | .pack => Sys2Proof.Machine.execPack s
  | .packi code len => Sys2Proof.Machine.execPacki code len s
  | .serialize => Sys2Proof.Machine.execSerialize s
  | .deserialize => Sys2Proof.Machine.execDeserialize s
  | .decsym => Sys2Proof.Machine.execDecsym s
  | .encode => Sys2Proof.Machine.execEncode s
  | .decode => Sys2Proof.Machine.execDecode s

end Sys2Proof.Machine
end

