-- ==== Sys2Proof/Machine/HostActions.lean ====
section
/-!
DEFINITION. What each host action does (10_state R35): a command word written to `CMD`, `LOAD`, `.xfer`, the reads,
reset.
-/

namespace Sys2Proof.Machine

/-- A command word written to `CMD` (10_state R24): "the word is decoded before anything else" (60_exceptions R165);
a word that spells no command raises `F_ILLCMD` (30_encoding R73). -/
def issueCommand (w : CommandWord) (s : State) : Host.Outcome State Fault Refusal :=
  match Sys2Proof.decode w with
  | .ok i => exec i s
  | .error _ => runCommand (fun _ => .raised (.fIllcmd w)) s

/-- `LOAD bytes`: "its length ≤ `IBUF_CAP`; otherwise the action is refused (it is not performed; no fault)"
(10_state R35; 93_implementation_defined V9; for `.xfer` log entry 16, DEDUCED). -/
def loadBytes (bytes : List Byte) (s : State) : Result :=
  if admits s.caps.ibuf bytes.length then .done (s.writeIbuf bytes) else .done (s.reply .refused)

/-- What a read of the register with this number returns (10_state R27, R22). Number 0, `CMD`, is write-only and 13 to
15 are reserved: the access is refused (10_state R24; 93_implementation_defined V10; log entry 10). -/
def registerAnswer (s : State) (number : Nat) : Answer :=
  match number with
  | 1 => .value s.status.toNat
  | 2 => guarded s.pv s.prN.toNat
  | 3 => guarded s.pv s.prM.toNat
  | 4 => guarded s.pv s.prPL.toNat
  | 5 => guarded s.pv s.prPT.toNat
  | 6 => guarded s.rv s.code.toNat
  | 7 => guarded s.rv s.len.toNat
  | 8 => guarded s.sv s.symo.toNat
  | 9 => .value s.cur
  | 10 => .value s.blen
  | 11 => .value s.ilen
  | 12 => .value s.olen
  | _ => .refused

/-- One host action (10_state R35). Reads have no side effect (20_memory R49). Reset alone acts on a faulted state
(60_exceptions R167). -/
def perform (a : HostAction) (s : State) : Host.Outcome State Fault Refusal :=
  match a with
  | .command w => issueCommand w s
  | .load bytes => runCommand (loadBytes bytes) s
  | .xfer => runCommand (fun t => loadBytes t.obuf t) s
  | .readRegister number => runCommand (fun t => .done (t.reply (registerAnswer t number))) s
  | .readIbuf => runCommand (fun t => .done (t.reply (.bytes t.ibuf))) s
  | .readObuf => runCommand (fun t => .done (t.reply (.bytes t.obuf))) s
  | .readBs => runCommand (fun t => .done (t.reply (.bits t.bs))) s
  | .reset => .next (applyReset s)

/-- One step of the core and its host (00_scope R7): the host's next action. With none left "the core waits for the
host's first command" (70_reset R181; log entry 2). -/
def hostStep (s : State) : Host.Outcome State Fault Refusal :=
  match s.host with
  | [] => .next s
  | a :: rest => perform a (s.takeAction rest)

/-- The host writes this word to `CMD` next, before its other actions. -/
def writesNext (s : State) (w : CommandWord) : State :=
  { s with host := .command w :: s.host }

end Sys2Proof.Machine
end

