-- ==== Sys2Proof/Machine/Step.lean ====
section
/-!
DEFINITION. The step, and where it finds its next command: at the head of the host's list of actions, since the core
fetches no instructions (10_state R20; log entry 1).
-/

namespace Sys2Proof.Machine

/-- One step: one host action (00_scope R7). -/
def step (s : State) : Host.Outcome State Fault Refusal :=
  hostStep s

/-- The state in which the host's next action is to write this word to `CMD` (log entry 1). -/
def State.withFetchWord (s : State) (nbits w : Nat) : State :=
  writesNext s (BitVec.ofNat 32 (w % 2 ^ nbits))

end Sys2Proof.Machine
end

