-- ==== Sys2Proof/Safety.lean ====
section
/-!
DEFINITION. The terms the claims use: the invariant of 10_state R34, the codeword of a symbol, a memory written as
address and byte pairs, and the next state of an outcome.
-/

namespace Sys2Proof.Machine

/-- The relations of 10_state R15 between the parameter registers, with the range of `PR.N` (R11):
`PR.M = floor_log2(PR.N)`, written as `2^PR.M ≤ PR.N < 2^(PR.M + 1)` (40_parameter_deriver R81). -/
abbrev State.ParamsOk (s : State) : Prop :=
  1 ≤ s.prN.toNat ∧ s.prN.toNat ≤ 256 ∧
  2 ^ s.prM.toNat ≤ s.prN.toNat ∧ s.prN.toNat < 2 ^ (s.prM.toNat + 1) ∧
  s.prPL.toNat = s.prN.toNat - 2 ^ s.prM.toNat ∧
  s.prPT.toNat = 2 ^ s.prM.toNat - s.prPL.toNat

/-- The invariant of 10_state R34: it speaks of states "with `FAULT = none`". Of the clauses on `LEN` and
`SYMO` it keeps what needs no history: `LEN ≤ 8` (R18) and `CODE < 2^LEN` (log entry 20). -/
abbrev State.Inv (s : State) : Prop :=
  s.fault = none →
    s.cur ≤ s.blen ∧
    admits s.caps.bs s.blen = true ∧
    admits s.caps.ibuf s.ilen = true ∧
    admits s.caps.obuf s.olen = true ∧
    (s.pv = true → s.ParamsOk) ∧
    (s.rv = true → s.len.toNat ≤ 8 ∧ s.code.toNat < 2 ^ s.len.toNat)

/-- The codeword of a symbol under the parameters of a state: the bits `PACK` appends after `ENCSYM` of that symbol
(30_encoding R61, R62). -/
def State.codeword (s : State) (sym : Byte) : List Bool :=
  codeBits (BitVec.ofNat 16 (symbolCode s.prM.toNat s.prPT.toNat sym.toNat))
    (symbolLength s.prM.toNat s.prPT.toNat sym.toNat)

/-- A byte memory as address and byte pairs: index `a` holds the byte at address `a` (20_memory R40). An address that
is not listed reads as nothing (`memRead`; 20_memory R51). -/
def memoryCells (space : List Byte) : List Host.Cell :=
  space.zipIdx.map fun p => (p.2, p.1)

/-- The canonical form of a list of cells: addresses strictly rising. No listed byte equals what an unlisted address
reads as, since that is no byte. -/
abbrev Memory.wf (cells : List Host.Cell) : Prop :=
  cells.Pairwise fun a b => a.1 < b.1

/-- The commands and host actions of a list, one a step (00_scope R7): at most `k` steps. -/
def runSteps : Nat → State → Host.Outcome State Fault Refusal
  | 0, s => .next s
  | k + 1, s =>
    match step s with
    | .next t => runSteps k t
    | .fault r => .fault r
    | .refused r => .refused r

/-- The host writes the word of this instruction to `CMD` (10_state R24). -/
def issue (i : Instr) : HostAction := .command (Sys2Proof.encode i)

/-- The next state of an outcome, if it has one. -/
def nextState (o : Host.Outcome State Fault Refusal) : Option State :=
  match o with
  | .next s => some s
  | .fault _ => none
  | .refused _ => none

/-- The fault mark of the next state of an outcome, if it has one. -/
def faultAfter (o : Host.Outcome State Fault Refusal) : Option (Option Cause) :=
  (nextState o).map fun t => t.fault

end Sys2Proof.Machine
end

