-- ==== Sys2Proof/Certificates/Slice0/Obligations.lean ====
section
/-!
DEFINITION. The statements for the provers, from the numbered rules of spec/. A command "completes" when exec answers a
next state whose fault mark is none; a raised cause is a next state whose fault mark holds it (60_exceptions R166).
-/

open Sys2Proof Sys2Proof.Machine

/-! ### Encoding -/

/-- Every instruction, with every operand at every value, decodes back from its word (30_encoding R72, R74). -/
def Obligations.DecodeInvertsEncode : Prop :=
  ∀ i : Instr, decode (encode i) = .ok i

/-- A word that decodes is the word of the instruction it decodes to (30_encoding R71, R73). -/
def Obligations.EncodeInvertsDecode : Prop :=
  ∀ (w : CommandWord) (i : Instr), decode w = .ok i → encode i = w

/-- 30_encoding R72: "a word `w` is the command of a row when `w & mask = match`", for the ten rows of
opcode_table.json. -/
def Obligations.WordsAreThoseOfTheTable : Prop :=
  ∀ w : CommandWord,
    ((∃ n, decode w = .ok (.derive n)) ↔ w &&& 0xFFFFFE00#32 = 0x10000000#32) ∧
    ((∃ sym, decode w = .ok (.encsym sym)) ↔ w &&& 0xFFFFFF00#32 = 0x20000000#32) ∧
    (decode w = .ok .bsclr ↔ w = 0x30000000#32) ∧
    (decode w = .ok .pack ↔ w = 0x40000000#32) ∧
    ((∃ code len, decode w = .ok (.packi code len)) ↔ w &&& 0xFFE00000#32 = 0x50000000#32) ∧
    (decode w = .ok .serialize ↔ w = 0x60000000#32) ∧
    (decode w = .ok .deserialize ↔ w = 0x70000000#32) ∧
    (decode w = .ok .decsym ↔ w = 0x80000000#32) ∧
    (decode w = .ok .encode ↔ w = 0x90000000#32) ∧
    (decode w = .ok .decode ↔ w = 0xA0000000#32)

/-- The words that spell no command (30_encoding R73), written to `CMD`, raise `F_ILLCMD` with the word. -/
def Obligations.ReservedWordsAreIllegal : Prop :=
  ∀ (s : State) (w : CommandWord) (rest : List HostAction), s.fault = none → s.host = .command w :: rest →
    (w.toNat / 2 ^ 28 = 0 ∨ 11 ≤ w.toNat / 2 ^ 28 ∨
      (w.toNat / 2 ^ 28 = 1 ∧ w.toNat / 2 ^ 9 % 2 ^ 19 ≠ 0) ∨
      (w.toNat / 2 ^ 28 = 2 ∧ w.toNat / 2 ^ 8 % 2 ^ 20 ≠ 0) ∨
      (w.toNat / 2 ^ 28 = 5 ∧ w.toNat / 2 ^ 21 % 2 ^ 7 ≠ 0) ∨
      (w.toNat / 2 ^ 28 ∈ [3, 4, 6, 7, 8, 9, 10] ∧ w.toNat % 2 ^ 28 ≠ 0)) →
    ∃ t, step s = .next t ∧ t.fault = some (.fIllcmd w)

/-- The example words of 30_encoding R75, and the words without operands. -/
def Obligations.ExampleWordsDecode : Prop :=
  decode 0x10000009#32 = .ok (.derive 9) ∧
  decode 0x20000007#32 = .ok (.encsym 7) ∧
  decode 0x5004000E#32 = .ok (.packi 0b1110 4) ∧
  decode 0x30000000#32 = .ok .bsclr ∧
  decode 0x80000000#32 = .ok .decsym ∧
  decode 0x90000000#32 = .ok .encode

/-- Writing a word that decodes to `CMD` makes the core execute that command (10_state R24); the step takes the host's
action and clears what the last one returned (log entries 1 and 10). -/
def Obligations.StepRunsTheDecodedCommand : Prop :=
  ∀ (s : State) (w : CommandWord) (rest : List HostAction) (i : Instr),
    s.host = .command w :: rest → decode w = .ok i → step s = exec i { s with host := rest, answer := none }

/-! ### Reset and the host -/

/-- The reset values of 10_state R33: the table line by line, the data registers "no value" as the host reads them. -/
def Obligations.ResetLeavesTheSpecsValues : Prop :=
  ∀ caps : Caps,
    (State.resetWith caps).pv = false ∧ (State.resetWith caps).rv = false ∧ (State.resetWith caps).sv = false ∧
    (∀ number, 2 ≤ number → number ≤ 8 → registerAnswer (State.resetWith caps) number = .noValue) ∧
    (State.resetWith caps).cur = 0 ∧ (State.resetWith caps).bs = [] ∧ (State.resetWith caps).ibuf = [] ∧
    (State.resetWith caps).obuf = [] ∧ (State.resetWith caps).fault = none ∧
    (State.resetWith caps).status = 0x00000008#32 ∧ State.reset = State.resetWith Config.defaultCaps

/-- The invariant holds after reset, whatever the capacities. -/
def Obligations.ResetSatisfiesTheInvariant : Prop :=
  State.reset.Inv ∧ ∀ caps : Caps, (State.resetWith caps).Inv

/-- Reset in any state, a faulted one too, leaves the reset state (70_reset R180). The zeros in the data registers and
what stays of the host's side are the model's choice (log entries 3 and 12). -/
def Obligations.ResetMayBeAppliedInAnyState : Prop :=
  ∀ (s : State) (rest : List HostAction), s.host = .reset :: rest →
    step s = .next { State.resetWith s.caps with host := rest, draws := s.draws }

/-- Only reset clears `FAULT`; anything else keeps the same fault (60_exceptions R167, the choice of log entry 6). -/
def Obligations.OnlyResetClearsTheFault : Prop :=
  ∀ (s : State) (c : Cause) (a : HostAction) (rest : List HostAction), s.fault = some c → s.host = a :: rest →
    (a = .reset → ∃ t, step s = .next t ∧ t.fault = none) ∧
    (a ≠ .reset → ∃ t, step s = .next t ∧ t.fault = some c)

/-- After the host's last action the core waits, unchanged (70_reset R181; the model's choice, log entry 2). -/
def Obligations.CoreWaitsForTheHost : Prop :=
  ∀ s : State, s.host = [] → step s = .next s

/-- `LOAD` replaces `IBUF` whole within `IBUF_CAP` and is refused above it, and `.xfer` is the `LOAD` of `OBUF`
(10_state R35, 30_encoding R76). -/
def Obligations.LoadReplacesIbufOrIsRefused : Prop :=
  ∀ (s : State) (bytes : List Byte) (rest : List HostAction), s.fault = none →
    (s.host = .load bytes :: rest ∨ (s.host = .xfer :: rest ∧ bytes = s.obuf)) →
    (admits s.caps.ibuf bytes.length = true → step s = .next { s with ibuf := bytes, host := rest, answer := none }) ∧
    (admits s.caps.ibuf bytes.length = false → step s = .next { s with host := rest, answer := some .refused })

/-- A read of `STATUS` changes nothing but the answer, and its bits are those of 10_state R25. -/
def Obligations.StatusReadsTheFlags : Prop :=
  ∀ (s : State) (rest : List HostAction), s.fault = none → s.host = .readRegister 1 :: rest →
    ∃ v : BitVec 32, step s = .next { s with host := rest, answer := some (.value v.toNat) } ∧
      v.getLsbD 0 = s.pv ∧ v.getLsbD 1 = s.rv ∧ v.getLsbD 2 = s.sv ∧ (v.getLsbD 3 = true ↔ s.cur = s.blen) ∧
      ∀ j, 4 ≤ j → v.getLsbD j = false

/-- A host read of a register changes nothing but the answer; a register whose valid bit is 0 returns no value, and
numbers 0 and 13 up are refused (10_state R22, R27, R35; log entry 10 for the refusals). -/
def Obligations.HostReadsOfRegisters : Prop :=
  ∀ (s : State) (number : Nat) (rest : List HostAction), s.fault = none → s.host = .readRegister number :: rest →
    ∃ a, step s = .next { s with host := rest, answer := some a } ∧
      (number = 2 → a = if s.pv then .value s.prN.toNat else .noValue) ∧
      (number = 3 → a = if s.pv then .value s.prM.toNat else .noValue) ∧
      (number = 4 → a = if s.pv then .value s.prPL.toNat else .noValue) ∧
      (number = 5 → a = if s.pv then .value s.prPT.toNat else .noValue) ∧
      (number = 6 → a = if s.rv then .value s.code.toNat else .noValue) ∧
      (number = 7 → a = if s.rv then .value s.len.toNat else .noValue) ∧
      (number = 8 → a = if s.sv then .value s.symo.toNat else .noValue) ∧
      (number = 9 → a = .value s.cur) ∧ (number = 10 → a = .value s.blen) ∧
      (number = 11 → a = .value s.ilen) ∧ (number = 12 → a = .value s.olen) ∧
      (number = 0 ∨ 13 ≤ number → a = .refused)

/-- Host reads of the memories return the sequence and change nothing but the answer (10_state R35, 20_memory R49). -/
def Obligations.HostReadsOfMemories : Prop :=
  ∀ (s : State) (rest : List HostAction), s.fault = none →
    (s.host = .readIbuf :: rest → step s = .next { s with host := rest, answer := some (.bytes s.ibuf) }) ∧
    (s.host = .readObuf :: rest → step s = .next { s with host := rest, answer := some (.bytes s.obuf) }) ∧
    (s.host = .readBs :: rest → step s = .next { s with host := rest, answer := some (.bits s.bs) })

/-! ### DERIVE -/

/-- `DERIVE n` (40_parameter_deriver R80): its word, what it writes for `n` from 1 to 256 with `m` the `floor_log2` of
`n` (R81), and the fault `F_N` for every other `n`. Nothing else is written. -/
def Obligations.DeriveWritesTheParameters : Prop :=
  ∀ (s : State) (n : AlphabetSize), s.fault = none →
    decode (BitVec.ofNat 32 (0x10000000 + n.toNat)) = .ok (.derive n) ∧
    (1 ≤ n.toNat → n.toNat ≤ 256 →
      ∃ m, 2 ^ m ≤ n.toNat ∧ n.toNat < 2 ^ (m + 1) ∧
        exec (.derive n) s =
          .next { s with
            prN := n
            prM := BitVec.ofNat 4 m
            prPL := BitVec.ofNat 8 (n.toNat - 2 ^ m)
            prPT := BitVec.ofNat 9 (2 ^ m - (n.toNat - 2 ^ m))
            pv := true }) ∧
    (n.toNat = 0 ∨ 256 < n.toNat → ∃ t, exec (.derive n) s = .next t ∧ t.fault = some (.fN n))

/-- Parameter identity (45_laws R145), of the registers as `DERIVE` leaves them: no value is cut by its width. -/
def Obligations.ParameterIdentity : Prop :=
  ∀ (s : State) (n : AlphabetSize), s.fault = none → 1 ≤ n.toNat → n.toNat ≤ 256 →
    ∃ t, exec (.derive n) s = .next t ∧ t.fault = none ∧
      t.prPL.toNat + t.prPT.toNat = 2 ^ t.prM.toNat ∧ t.prPL.toNat < 2 ^ t.prM.toNat ∧
      1 ≤ t.prPT.toNat ∧ t.prPT.toNat ≤ n.toNat ∧ t.prN = n

/-- The closed forms of 40_parameter_deriver R83, of the registers as `DERIVE` leaves them. -/
def Obligations.ParameterClosedForms : Prop :=
  ∀ (s : State) (n : AlphabetSize), s.fault = none → 1 ≤ n.toNat → n.toNat ≤ 256 →
    ∃ t, exec (.derive n) s = .next t ∧ t.fault = none ∧
      2 ^ t.prM.toNat ≤ n.toNat ∧ n.toNat < 2 ^ (t.prM.toNat + 1) ∧
      t.prPL.toNat = n.toNat - 2 ^ t.prM.toNat ∧ t.prPT.toNat = 2 ^ (t.prM.toNat + 1) - n.toNat ∧
      (t.prPT.toNat = 1 ↔ n.toNat = 2 ^ (t.prM.toNat + 1) - 1) ∧
      (t.prPT.toNat = n.toNat ↔ n.toNat = 2 ^ t.prM.toNat)

/-- Only `DERIVE` and reset write the parameter registers and `PV`; `DERIVE` may be issued in any state without fault
and writes nothing else (10_state R16). -/
def Obligations.ParametersFixedInASession : Prop :=
  (∀ (s t : State) (a : HostAction) (rest : List HostAction), s.host = a :: rest → step s = .next t →
    t.fault = none → a ≠ .reset → (∀ n, a ≠ issue (.derive n)) →
    t.prN = s.prN ∧ t.prM = s.prM ∧ t.prPL = s.prPL ∧ t.prPT = s.prPT ∧ t.pv = s.pv) ∧
  (∀ (s : State) (n : AlphabetSize), s.fault = none → 1 ≤ n.toNat → n.toNat ≤ 256 →
    ∃ t, exec (.derive n) s = .next t ∧
      t = { s with prN := t.prN, prM := t.prM, prPL := t.prPL, prPT := t.prPT, pv := t.pv })

/-! ### ENCSYM -/

/-- `ENCSYM s` (41_symbol_encoder R90): its word, its faults in their order, and the codeword it writes in each class,
with the masks, and that the masks change nothing (R91). Nothing but `CODE`, `LEN`, `RV` is written. -/
def Obligations.EncsymWritesTheCodeword : Prop :=
  ∀ (s : State) (sym : Byte), s.fault = none → s.Inv →
    decode (BitVec.ofNat 32 (0x20000000 + sym.toNat)) = .ok (.encsym sym) ∧
    (s.pv = false → ∃ t, exec (.encsym sym) s = .next t ∧ t.fault = some .fNoparam) ∧
    (s.pv = true → s.prN.toNat ≤ sym.toNat →
      ∃ t, exec (.encsym sym) s = .next t ∧ t.fault = some (.fSym sym none)) ∧
    (s.pv = true → sym.toNat < s.prN.toNat → sym.toNat < s.prPT.toNat →
      sym.toNat % 2 ^ s.prM.toNat = sym.toNat ∧
      exec (.encsym sym) s =
        .next { s with
          code := BitVec.ofNat 16 (sym.toNat % 2 ^ s.prM.toNat)
          len := BitVec.ofNat 8 s.prM.toNat
          rv := true }) ∧
    (s.pv = true → sym.toNat < s.prN.toNat → s.prPT.toNat ≤ sym.toNat →
      ∃ off base, off = sym.toNat - s.prPT.toNat ∧ base = s.prPT.toNat + off / 2 ∧
        base % 2 ^ s.prM.toNat = base ∧
        exec (.encsym sym) s =
          .next { s with
            code := BitVec.ofNat 16 (2 * (base % 2 ^ s.prM.toNat) + off % 2)
            len := BitVec.ofNat 8 (s.prM.toNat + 1)
            rv := true })

/-- The closed form of a long codeword, of its `m`-bit prefix, and its range (45_laws R158). -/
def Obligations.LongCodewordClosedForm : Prop :=
  ∀ (s : State) (sym : Byte), s.fault = none → s.Inv → s.pv = true → s.prPT.toNat ≤ sym.toNat →
    sym.toNat < s.prN.toNat →
    ∃ t, exec (.encsym sym) s = .next t ∧ t.fault = none ∧
      t.code.toNat = sym.toNat + s.prPT.toNat ∧
      bitsValue ((codeBits t.code t.len.toNat).take s.prM.toNat) = (sym.toNat + s.prPT.toNat) / 2 ∧
      2 * s.prPT.toNat ≤ t.code.toNat ∧ t.code.toNat ≤ 2 ^ (s.prM.toNat + 1) - 1 ∧
      s.prN.toNat + s.prPT.toNat - 1 = 2 ^ (s.prM.toNat + 1) - 1

/-- The length of a codeword is `m` or `m + 1`, at most 8; when it is 0 and when it is 8 (45_laws R147, R148). -/
def Obligations.CodewordLengthBounds : Prop :=
  ∀ (s : State) (sym : Byte), s.fault = none → s.Inv → s.pv = true → sym.toNat < s.prN.toNat →
    ∃ t, exec (.encsym sym) s = .next t ∧ t.fault = none ∧
      (t.len.toNat = s.prM.toNat ∨ t.len.toNat = s.prM.toNat + 1) ∧ t.len.toNat ≤ 8 ∧
      (t.len.toNat = 0 ↔ s.prN.toNat = 1) ∧
      (t.len.toNat = 8 ↔
        (128 < s.prN.toNat ∧ s.prN.toNat < 256 ∧ s.prPT.toNat ≤ sym.toNat) ∨ s.prN.toNat = 256)

/-- `CODE < 2^LEN` after every `ENCSYM`, so the bits `PACK` appends are all of `CODE` (45_laws R149). -/
def Obligations.CodeFitsItsLength : Prop :=
  ∀ (s : State) (sym : Byte), s.fault = none → s.Inv → s.pv = true → sym.toNat < s.prN.toNat →
    ∃ t, exec (.encsym sym) s = .next t ∧ t.fault = none ∧
      t.code.toNat < 2 ^ t.len.toNat ∧ bitsValue (codeBits t.code t.len.toNat) = t.code.toNat

/-- The long class has `2 × pl` symbols, in `pl` pairs that share a prefix and differ in the suffix bit (45_laws R146,
30_encoding R62). -/
def Obligations.LongSymbolsComeInPairs : Prop :=
  ∀ s : State, s.fault = none → s.Inv → s.pv = true →
    s.prN.toNat - s.prPT.toNat = 2 * s.prPL.toNat ∧
    ∀ k, k < s.prPL.toNat →
      ∃ t u, exec (.encsym (BitVec.ofNat 8 (s.prPT.toNat + 2 * k))) s = .next t ∧
        exec (.encsym (BitVec.ofNat 8 (s.prPT.toNat + 2 * k + 1))) s = .next u ∧
        t.fault = none ∧ u.fault = none ∧
        t.len.toNat = s.prM.toNat + 1 ∧ u.len.toNat = s.prM.toNat + 1 ∧
        t.code.toNat = 2 * (s.prPT.toNat + k) ∧ u.code.toNat = 2 * (s.prPT.toNat + k) + 1

/-- Prefix-free class separation (45_laws R150): a short codeword is no `m`-bit prefix of a long one. -/
def Obligations.ShortCodesAreNoLongPrefixes : Prop :=
  ∀ (s : State) (a b : Byte), s.fault = none → s.Inv → s.pv = true → a.toNat < s.prPT.toNat →
    s.prPT.toNat ≤ b.toNat → b.toNat < s.prN.toNat →
    ∃ t u, exec (.encsym a) s = .next t ∧ exec (.encsym b) s = .next u ∧ t.fault = none ∧ u.fault = none ∧
      codeBits t.code t.len.toNat ≠ (codeBits u.code u.len.toNat).take s.prM.toNat

/-- Distinct symbols have codewords neither of which is a prefix of the other (45_laws R152). -/
def Obligations.CodewordsArePrefixFree : Prop :=
  ∀ (s : State) (a b : Byte), s.fault = none → s.Inv → s.pv = true → a.toNat < s.prN.toNat →
    b.toNat < s.prN.toNat → a ≠ b →
    ∃ t u, exec (.encsym a) s = .next t ∧ exec (.encsym b) s = .next u ∧ t.fault = none ∧ u.fault = none ∧
      ¬ codeBits t.code t.len.toNat <+: codeBits u.code u.len.toNat

/-- The code is complete: every long enough bit sequence begins with exactly one codeword (30_encoding R66, 45_laws
R151). -/
def Obligations.EveryLongSequenceBeginsWithACodeword : Prop :=
  ∀ s : State, s.fault = none → s.Inv → s.pv = true →
    ∀ bits : List Bool, s.prM.toNat + 1 ≤ bits.length →
      ∃ sym : Byte, (sym.toNat < s.prN.toNat ∧ s.codeword sym <+: bits) ∧
        ∀ other : Byte, other.toNat < s.prN.toNat → s.codeword other <+: bits → other = sym

/-! ### The packer -/

/-- `BSCLR` (42_bitstream_packer R101): its word, `BS` empty, `CUR` 0, nothing else. -/
def Obligations.BsclrEmptiesTheSequence : Prop :=
  ∀ s : State, s.fault = none →
    decode 0x30000000#32 = .ok .bsclr ∧ exec .bsclr s = .next { s with bs := [], cur := 0 }

/-- `PACK` (42_bitstream_packer R102): its word, its faults, and the bits it appends: the low `LEN` bits of `CODE`,
most significant first. Nothing but `BS` is written. -/
def Obligations.PackAppendsThePair : Prop :=
  ∀ s : State, s.fault = none → s.Inv →
    decode 0x40000000#32 = .ok .pack ∧
    (s.rv = false → ∃ t, exec .pack s = .next t ∧ t.fault = some .fNovalue) ∧
    (s.rv = true → admits s.caps.bs (s.blen + s.len.toNat) = true →
      exec .pack s =
        .next { s with
          bs := s.bs ++ (List.range s.len.toNat).map fun k => s.code.getLsbD (s.len.toNat - 1 - k) }) ∧
    (s.rv = true → admits s.caps.bs (s.blen + s.len.toNat) = false →
      ∃ t, exec .pack s = .next t ∧ t.fault = some (.fCap .bs))

/-- `PACKI code, len` (42_bitstream_packer R103): its word, its faults, and the bits it appends, as `Append` of R100
says. Nothing but `BS` is written. -/
def Obligations.PackiAppendsTheImmediate : Prop :=
  ∀ (s : State) (code : CodeWord) (len : LengthField), s.fault = none → s.Inv →
    decode (BitVec.ofNat 32 (0x50000000 + len.toNat * 2 ^ 16 + code.toNat)) = .ok (.packi code len) ∧
    (16 < len.toNat → ∃ t, exec (.packi code len) s = .next t ∧ t.fault = some (.fLen len)) ∧
    (len.toNat ≤ 16 → admits s.caps.bs (s.blen + len.toNat) = true →
      exec (.packi code len) s =
        .next { s with bs := s.bs ++ (List.range len.toNat).map fun k => code.getLsbD (len.toNat - 1 - k) }) ∧
    (len.toNat ≤ 16 → admits s.caps.bs (s.blen + len.toNat) = false →
      ∃ t, exec (.packi code len) s = .next t ∧ t.fault = some (.fCap .bs))

/-- Order and contiguity (42_bitstream_packer R106): after `BSCLR` and appends of pairs, `BS` is the concatenation of
their writings, in order, with no padding between. -/
def Obligations.PackingKeepsTheOrder : Prop :=
  ∀ (s : State) (pairs : List (CodeWord × LengthField)), s.fault = none → (∀ p ∈ pairs, p.2.toNat ≤ 16) →
    admits s.caps.bs (pairs.map fun p => p.2.toNat).sum = true →
    ∃ t, runSteps (pairs.length + 1)
        { s with host := issue .bsclr :: pairs.map fun p => issue (.packi p.1 p.2) } = .next t ∧
      t.fault = none ∧ t.blen = (pairs.map fun p => p.2.toNat).sum ∧
      t.bs = pairs.flatMap fun p => (List.range p.2.toNat).map fun k => p.1.getLsbD (p.2.toNat - 1 - k)

/-- `SERIALIZE` (42_bitstream_packer R104): its word, its fault, and the buffer: length, header, every bit of the
sequence in its place, every padding bit 0. Nothing but `OBUF` is written. -/
def Obligations.SerializeWritesTheBuffer : Prop :=
  ∀ s : State, s.fault = none →
    decode 0x60000000#32 = .ok .serialize ∧
    (admits s.caps.obuf (1 + (s.blen + 7) / 8) = true →
      ∃ bytes, exec .serialize s = .next { s with obuf := bytes } ∧
        bytes.length = 1 + (s.blen + 7) / 8 ∧
        bytes[0]? = some (BitVec.ofNat 8 ((8 - s.blen % 8) % 8)) ∧
        ∀ i, i < 8 * ((s.blen + 7) / 8) →
          (bytes[1 + i / 8]?.map fun v => v.getLsbD (7 - i % 8)) = some (s.bs.getD i false)) ∧
    (admits s.caps.obuf (1 + (s.blen + 7) / 8) = false →
      ∃ t, exec .serialize s = .next t ∧ t.fault = some (.fCap .obuf))

/-- `DESERIALIZE` (42_bitstream_packer R105): its word, its faults in their order, and the sequence: length and every
bit, from its place in the payload. `CUR` is cleared; nothing else is written. -/
def Obligations.DeserializeRebuildsTheSequence : Prop :=
  ∀ s : State, s.fault = none →
    decode 0x70000000#32 = .ok .deserialize ∧
    (s.ibuf = [] → ∃ t, exec .deserialize s = .next t ∧ t.fault = some .fNohdr) ∧
    (∀ header payload, s.ibuf = header :: payload → 7 < header.toNat ∨ (payload = [] ∧ 0 < header.toNat) →
      ∃ t, exec .deserialize s = .next t ∧ t.fault = some (.fHdr header)) ∧
    (∀ header payload, s.ibuf = header :: payload → header.toNat ≤ 7 → (payload = [] → header.toNat = 0) →
      admits s.caps.bs (8 * payload.length - header.toNat) = true →
      ∃ bits, exec .deserialize s = .next { s with bs := bits, cur := 0 } ∧
        bits.length = 8 * payload.length - header.toNat ∧
        ∀ i, i < bits.length → bits[i]? = payload[i / 8]?.map fun v => v.getLsbD (7 - i % 8)) ∧
    (∀ header payload, s.ibuf = header :: payload → header.toNat ≤ 7 → (payload = [] → header.toNat = 0) →
      admits s.caps.bs (8 * payload.length - header.toNat) = false →
      ∃ t, exec .deserialize s = .next t ∧ t.fault = some (.fCap .bs))

/-- Padding bits are "dropped unexamined" (30_encoding R68): two buffers that differ in them only deserialize alike. -/
def Obligations.PaddingBitsAreIgnored : Prop :=
  ∀ (s t : State) (header v v' : Byte) (payload : List Byte), s.ibuf = header :: (payload ++ [v]) →
    v >>> header.toNat = v' >>> header.toNat → exec .deserialize s = .next t → t.fault = none →
    ∃ t', exec .deserialize { s with ibuf := header :: (payload ++ [v']) } = .next t' ∧
      t' = { t with ibuf := header :: (payload ++ [v']) }

/-- `DESERIALIZE` undoes `SERIALIZE`; `SERIALIZE` undoes `DESERIALIZE` but for padding bits, which it clears
(42_bitstream_packer R107). -/
def Obligations.SerializeAndDeserializeAreInverse : Prop :=
  (∀ s : State, s.fault = none → admits s.caps.bs s.blen = true →
    admits s.caps.obuf (1 + (s.blen + 7) / 8) = true → admits s.caps.ibuf (1 + (s.blen + 7) / 8) = true →
    ∃ t, runSteps 3 { s with host := [issue .serialize, .xfer, issue .deserialize] } = .next t ∧
      t.fault = none ∧ t.bs = s.bs ∧ t.cur = 0) ∧
  (∀ (s : State) (header : Byte) (payload : List Byte), s.fault = none → s.ibuf = header :: payload →
    header.toNat ≤ 7 → (payload = [] → header.toNat = 0) →
    admits s.caps.bs (8 * payload.length - header.toNat) = true → admits s.caps.obuf s.ilen = true →
    ∃ t, runSteps 2 { s with host := [issue .deserialize, issue .serialize] } = .next t ∧ t.fault = none ∧
      t.obuf = header :: (payload.dropLast ++
        payload.getLast?.toList.map fun v : Byte => (v >>> header.toNat) <<< header.toNat) ∧
      (t.obuf = s.ibuf ↔ ∀ v, payload.getLast? = some v → ∀ j, j < header.toNat → v.getLsbD j = false))

/-! ### DECSYM -/

/-- `ReadBits(pos, w)` is the value of `w` bits of `BS`, "the bit at `pos` being the most significant"
(43_symbol_decoder R121). -/
def Obligations.ReadBitsIsMsbFirst : Prop :=
  ∀ (bits : List Bool) (pos w : Nat), pos + w ≤ bits.length →
    readBits bits pos w < 2 ^ w ∧
    ∀ j, j < w → (readBits bits pos w).testBit (w - 1 - j) = bits.getD (pos + j) false

/-- `DECSYM` (43_symbol_decoder R120): its word, its faults in their order, and what it writes in each class. Nothing
but `SYMO`, `SV`, `CUR` is written. -/
def Obligations.DecsymDecodesOneCodeword : Prop :=
  ∀ s : State, s.fault = none → s.Inv →
    decode 0x80000000#32 = .ok .decsym ∧
    (s.pv = false → ∃ t, exec .decsym s = .next t ∧ t.fault = some .fNoparam) ∧
    (s.pv = true → s.cur = s.blen → ∃ t, exec .decsym s = .next t ∧ t.fault = some .fEos) ∧
    (s.pv = true → s.cur < s.blen → s.blen - s.cur < s.prM.toNat →
      ∃ t, exec .decsym s = .next t ∧ t.fault = some (.fTrunc s.cur)) ∧
    (s.pv = true → s.cur < s.blen → s.prM.toNat ≤ s.blen - s.cur →
      readBits s.bs s.cur s.prM.toNat < s.prPT.toNat →
      exec .decsym s =
        .next { s with
          symo := BitVec.ofNat 8 (readBits s.bs s.cur s.prM.toNat)
          sv := true
          cur := s.cur + s.prM.toNat }) ∧
    (s.pv = true → s.cur < s.blen → s.blen - s.cur = s.prM.toNat →
      s.prPT.toNat ≤ readBits s.bs s.cur s.prM.toNat →
      ∃ t, exec .decsym s = .next t ∧ t.fault = some (.fTrunc s.cur)) ∧
    (s.pv = true → s.cur < s.blen → s.prM.toNat + 1 ≤ s.blen - s.cur →
      s.prPT.toNat ≤ readBits s.bs s.cur s.prM.toNat →
      exec .decsym s =
        .next { s with
          symo := BitVec.ofNat 8 (s.prPT.toNat + (readBits s.bs s.cur s.prM.toNat - s.prPT.toNat) * 2 +
            (s.bs.getD (s.cur + s.prM.toNat) false).toNat)
          sv := true
          cur := s.cur + (s.prM.toNat + 1) })

/-- `DECSYM` inverts `ENCSYM` one codeword at a time (45_laws R153). -/
def Obligations.DecsymInvertsEncsym : Prop :=
  ∀ (s t : State) (sym : Byte), s.Inv → exec (.encsym sym) s = .next t → t.fault = none →
    1 ≤ s.prM.toNat ∨ s.cur < s.blen → codeBits t.code t.len.toNat <+: s.bs.drop s.cur →
    exec .decsym s = .next { s with symo := sym, sv := true, cur := s.cur + t.len.toNat }

/-- Whatever bits `BS` holds, a `DECSYM` that does not fault writes a symbol of the alphabet (45_laws R157). -/
def Obligations.DecodedSymbolsAreInTheAlphabet : Prop :=
  ∀ s t : State, s.Inv → exec .decsym s = .next t → t.fault = none → t.symo.toNat < s.prN.toNat

/-- With `PR.N = 1`, `DECSYM` writes symbol 0 and the cursor does not move (43_symbol_decoder R122). -/
def Obligations.OneSymbolDecsymStandsStill : Prop :=
  ∀ s : State, s.fault = none → s.Inv → s.pv = true → s.prN.toNat = 1 → s.cur < s.blen →
    exec .decsym s = .next { s with symo := 0, sv := true }

/-! ### ENCODE and DECODE -/

/-- The end state of `ENCODE` (44_composite_operations R130): the codewords of `IBUF` in order, `CUR` 0, the pair of
the last symbol, and the serialized buffer. Nothing else is written. -/
def Obligations.EncodeEndState : Prop :=
  ∀ s : State, s.fault = none → s.Inv → s.pv = true → (∀ sym ∈ s.ibuf, sym.toNat < s.prN.toNat) →
    admits s.caps.bs (s.ibuf.flatMap s.codeword).length = true →
    admits s.caps.obuf (1 + ((s.ibuf.flatMap s.codeword).length + 7) / 8) = true →
    exec .encode s =
      .next { s with
        bs := s.ibuf.flatMap s.codeword
        cur := 0
        code := (s.ibuf.getLast?.map fun sym =>
          BitVec.ofNat 16 (symbolCode s.prM.toNat s.prPT.toNat sym.toNat)).getD s.code
        len := (s.ibuf.getLast?.map fun sym =>
          BitVec.ofNat 8 (symbolLength s.prM.toNat s.prPT.toNat sym.toNat)).getD s.len
        rv := s.rv || decide (s.ibuf ≠ [])
        obuf := serialized (s.ibuf.flatMap s.codeword) }

/-- Where `ENCODE` faults (44_composite_operations R130), the first primitive to fault reporting (60_exceptions R165):
`F_NOPARAM` first and even for an empty input; `F_SYM` with the index of the first symbol out of range, when the
codewords before it fit `BS`; `F_CAP` of `BS` when the codewords of in-range symbols at the head of the input pass
`BS_CAP`, whatever follows them; `F_CAP` of `OBUF` when only the buffer does not fit. -/
def Obligations.EncodeFaults : Prop :=
  ∀ s : State, s.fault = none → s.Inv →
    (s.pv = false → ∃ t, exec .encode s = .next t ∧ t.fault = some .fNoparam) ∧
    (∀ good bad rest, s.pv = true → s.ibuf = good ++ bad :: rest → (∀ sym ∈ good, sym.toNat < s.prN.toNat) →
      s.prN.toNat ≤ bad.toNat → admits s.caps.bs (good.flatMap s.codeword).length = true →
      ∃ t, exec .encode s = .next t ∧ t.fault = some (.fSym bad (some good.length))) ∧
    (∀ good rest, s.pv = true → s.ibuf = good ++ rest → (∀ sym ∈ good, sym.toNat < s.prN.toNat) →
      admits s.caps.bs (good.flatMap s.codeword).length = false →
      ∃ t, exec .encode s = .next t ∧ t.fault = some (.fCap .bs)) ∧
    (s.pv = true → (∀ sym ∈ s.ibuf, sym.toNat < s.prN.toNat) →
      admits s.caps.bs (s.ibuf.flatMap s.codeword).length = true →
      admits s.caps.obuf (1 + ((s.ibuf.flatMap s.codeword).length + 7) / 8) = false →
      ∃ t, exec .encode s = .next t ∧ t.fault = some (.fCap .obuf))

/-- `ENCODE` is exactly its sequence of primitive commands (44_composite_operations R132): issued one by one, `BSCLR`,
`ENCSYM` and `PACK` for each byte, `SERIALIZE`, they end in the same state. -/
def Obligations.EncodeIsItsPrimitives : Prop :=
  ∀ s t : State, exec .encode s = .next t → t.fault = none →
    runSteps (2 * s.ilen + 2)
        { s with
          host := issue .bsclr ::
            (s.ibuf.flatMap fun sym => [issue (.encsym sym), issue .pack]) ++ [issue .serialize] } =
      .next { t with host := [], answer := none }

/-- The size of an encoding (45_laws R156). R156's chain `(m + 1) × ILEN ≤ 8 × ILEN` does not hold for `N = 256`
(log entry 19); `BLEN ≤ 8 × ILEN` does. -/
def Obligations.EncodingSize : Prop :=
  ∀ s t : State, s.Inv → exec .encode s = .next t → t.fault = none →
    s.prM.toNat * s.ilen ≤ t.blen ∧ t.blen ≤ (s.prM.toNat + 1) * s.ilen ∧ t.blen ≤ 8 * s.ilen ∧
    t.blen = s.prM.toNat * s.ilen + s.ibuf.countP (fun sym => decide (s.prPT.toNat ≤ sym.toNat)) ∧
    t.olen ≤ 1 + s.ilen

/-- Padding correctness after `SERIALIZE` and after `ENCODE` (45_laws R155): header, length of the buffer, and the
padding bits. -/
def Obligations.PaddingCorrectness : Prop :=
  ∀ (i : Instr) (s t : State), i = .serialize ∨ i = .encode → exec i s = .next t → t.fault = none →
    t.obuf.head? = some (BitVec.ofNat 8 ((8 - t.blen % 8) % 8)) ∧ t.olen = 1 + (t.blen + 7) / 8 ∧
    ∀ v, t.obuf.tail.getLast? = some v → ∀ j, j < (8 - t.blen % 8) % 8 → v.getLsbD j = false

/-- `DECODE` of a buffer whose bit sequence is a concatenation of codewords gives back their symbols, with the end state
of 44_composite_operations R131. Nothing else is written. -/
def Obligations.DecodeRecoversTheSymbols : Prop :=
  ∀ (s : State) (header : Byte) (payload syms : List Byte), s.fault = none → s.Inv → s.pv = true →
    1 ≤ s.prM.toNat → s.ibuf = header :: payload → header.toNat ≤ 7 → (payload = [] → header.toNat = 0) →
    (∀ sym ∈ syms, sym.toNat < s.prN.toNat) →
    (bytesBits payload).take (8 * payload.length - header.toNat) = syms.flatMap s.codeword →
    admits s.caps.bs (8 * payload.length - header.toNat) = true → admits s.caps.obuf syms.length = true →
    exec .decode s =
      .next { s with
        bs := syms.flatMap s.codeword
        cur := (syms.flatMap s.codeword).length
        symo := syms.getLast?.getD s.symo
        sv := s.sv || decide (syms ≠ [])
        obuf := syms }

/-- A `DECODE` that ends without fault, of whatever buffer: `BS` is the deserialized sequence, the cursor is at its end,
every decoded byte is a symbol of the alphabet, and nothing else is written (44_composite_operations R131,
43_symbol_decoder R124, 60_exceptions R163). -/
def Obligations.DecodeEndState : Prop :=
  ∀ s t : State, s.Inv → exec .decode s = .next t → t.fault = none →
    (∃ u, exec .deserialize s = .next u ∧ u.fault = none ∧ t.bs = u.bs) ∧ t.cur = t.blen ∧
    (∀ sym ∈ t.obuf, sym.toNat < s.prN.toNat) ∧
    t = { s with bs := t.bs, cur := t.cur, symo := t.symo, sv := t.sv, obuf := t.obuf }

/-- Where `DECODE` faults before its loop: `F_NOPARAM` first, then the faults of `DESERIALIZE`
(44_composite_operations R131, 60_exceptions R165). -/
def Obligations.DecodeFaultsBeforeItsLoop : Prop :=
  ∀ s : State, s.fault = none →
    (s.pv = false → ∃ t, exec .decode s = .next t ∧ t.fault = some .fNoparam) ∧
    (∀ u c, s.pv = true → exec .deserialize s = .next u → u.fault = some c →
      ∃ t, exec .decode s = .next t ∧ t.fault = some c)

/-- Where `DECODE` faults in its loop (44_composite_operations R131), on a sequence that begins with whole codewords:
`F_TRUNC` at the tail when `OBUF` holds their symbols and the bits after them begin with no codeword
(43_symbol_decoder R123); `F_CAP` of `OBUF` when it does not hold their symbols, whatever follows them
(60_exceptions R162, R165). -/
def Obligations.DecodeFaultsInItsLoop : Prop :=
  ∀ (s : State) (header : Byte) (payload syms : List Byte) (tail : List Bool), s.fault = none → s.Inv →
    s.pv = true → 1 ≤ s.prM.toNat → s.ibuf = header :: payload → header.toNat ≤ 7 →
    (∀ sym ∈ syms, sym.toNat < s.prN.toNat) →
    (bytesBits payload).take (8 * payload.length - header.toNat) = syms.flatMap s.codeword ++ tail →
    admits s.caps.bs (8 * payload.length - header.toNat) = true →
    (admits s.caps.obuf syms.length = true → tail ≠ [] →
      (∀ sym : Byte, sym.toNat < s.prN.toNat → ¬ s.codeword sym <+: tail) →
      ∃ t, exec .decode s = .next t ∧ t.fault = some (.fTrunc (syms.flatMap s.codeword).length)) ∧
    (admits s.caps.obuf syms.length = false →
      ∃ t, exec .decode s = .next t ∧ t.fault = some (.fCap .obuf))

/-- `DECODE` is its sequence of primitive commands (44_composite_operations R132): `DESERIALIZE`, then one `DECSYM` for
each byte of the output, whose `SYMO` is that byte, end in the same state but for `OBUF`. -/
def Obligations.DecodeIsItsPrimitives : Prop :=
  ∀ s t : State, exec .decode s = .next t → t.fault = none →
    runSteps (t.olen + 1) { s with host := issue .deserialize :: List.replicate t.olen (issue .decsym) } =
      .next { t with obuf := s.obuf, host := [], answer := none } ∧
    ∀ k, k < t.olen →
      ∃ u, runSteps (k + 2) { s with host := issue .deserialize :: List.replicate t.olen (issue .decsym) } = .next u ∧
        t.obuf[k]? = some u.symo

/-- The one-symbol alphabet and the whole-buffer operations (44_composite_operations R133): `ENCODE` loses the count,
`DECODE` of the header alone gives nothing, and `DECODE` of a non-empty sequence has no next state, or `F_CAP` with a
finite `OBUF` (the stuck state is log entry 7's). -/
def Obligations.OneSymbolAlphabetBuffers : Prop :=
  ∀ s : State, s.fault = none → s.Inv → s.pv = true → s.prN.toNat = 1 →
    ((∀ sym ∈ s.ibuf, sym = 0) → admits s.caps.obuf 1 = true →
      ∃ t, exec .encode s = .next t ∧ t.fault = none ∧ t.bs = [] ∧ t.obuf = [0]) ∧
    (s.ibuf = [0] → ∃ t, exec .decode s = .next t ∧ t.fault = none ∧ t.obuf = []) ∧
    (∀ header payload, s.ibuf = header :: payload → header.toNat ≤ 7 → payload ≠ [] →
      admits s.caps.bs (8 * payload.length - header.toNat) = true →
      (s.caps.obuf = none → exec .decode s = .fault .neverReturns) ∧
      (∀ k, s.caps.obuf = some k → ∃ t, exec .decode s = .next t ∧ t.fault = some (.fCap .obuf)))

/-- Round trip (45_laws R154): `DERIVE n`, `LOAD S`, `ENCODE`, `LOAD` of the output, `DECODE` gives back `S` for every
`n` from 2 to 256, and the empty sequence for `n = 1`; within any capacities that hold the buffers. -/
def Obligations.RoundTrip : Prop :=
  ∀ (s u : State) (n : AlphabetSize) (syms : List Byte), s.fault = none → 1 ≤ n.toNat → n.toNat ≤ 256 →
    (∀ sym ∈ syms, sym.toNat < n.toNat) → exec (.derive n) s = .next u →
    admits s.caps.ibuf syms.length = true → admits s.caps.bs (syms.flatMap u.codeword).length = true →
    admits s.caps.obuf (1 + ((syms.flatMap u.codeword).length + 7) / 8) = true →
    admits s.caps.ibuf (1 + ((syms.flatMap u.codeword).length + 7) / 8) = true →
    (2 ≤ n.toNat → admits s.caps.obuf syms.length = true) →
    ∃ t, runSteps 5 { s with host := [issue (.derive n), .load syms, issue .encode, .xfer, issue .decode] } = .next t ∧
      t.fault = none ∧ (2 ≤ n.toNat → t.obuf = syms) ∧ (n.toNat = 1 → t.obuf = [])

/-- The results of a composite do not depend on `BS`, `CUR`, `CODE`, `LEN`, `SYMO` or the valid bits of the last two
(44_composite_operations R132). -/
def Obligations.CompositeResultsIgnoreTheWorkingState : Prop :=
  ∀ (i : Instr) (s t : State) (bs : List Bool) (cur : Nat) (code : CodeWord) (len : BitVec 8) (symo : Byte)
    (rv sv : Bool), i = .encode ∨ i = .decode → exec i s = .next t → t.fault = none →
    ∃ t', exec i { s with bs := bs, cur := cur, code := code, len := len, symo := symo, rv := rv, sv := sv } =
        .next t' ∧ t'.fault = none ∧ t'.obuf = t.obuf

/-- The capacities that suffice (00_scope R5): `ENCODE` of in-range symbols cannot overflow, and `DECODE` of a
well-formed buffer, for `N ≥ 2`, ends or is truncated. -/
def Obligations.SufficientCapacities : Prop :=
  ∀ s : State, s.fault = none → s.Inv → s.pv = true →
    ((∀ sym ∈ s.ibuf, sym.toNat < s.prN.toNat) → admits s.caps.bs (8 * s.ilen) = true →
      admits s.caps.obuf (1 + s.ilen) = true → ∃ t, exec .encode s = .next t ∧ t.fault = none) ∧
    (∀ header payload, 2 ≤ s.prN.toNat → s.ibuf = header :: payload → header.toNat ≤ 7 →
      (payload = [] → header.toNat = 0) → admits s.caps.bs (8 * (s.ilen - 1)) = true →
      admits s.caps.obuf (8 * (s.ilen - 1)) = true →
      ∃ t, exec .decode s = .next t ∧ (t.fault = none ∨ ∃ cur, t.fault = some (.fTrunc cur)))

/-! ### The whole machine -/

/-- Termination (70_reset R191): in a state without fault every command ends, `DECODE` whenever `PR.M ≥ 1`. -/
def Obligations.EveryCommandEnds : Prop :=
  ∀ (i : Instr) (s : State), s.fault = none → (i = .decode → s.pv = true → 1 ≤ s.prM.toNat) →
    ∃ t, exec i s = .next t

/-- The checks are made in the order written (60_exceptions R165): the word before anything else, the valid bits before
the operand and before the buffer. -/
def Obligations.FaultsComeInTheirOrder : Prop :=
  ∀ s : State, s.fault = none → s.pv = false →
    (∀ sym, ∃ t, exec (.encsym sym) s = .next t ∧ t.fault = some .fNoparam) ∧
    (∃ t, exec .decsym s = .next t ∧ t.fault = some .fNoparam) ∧
    (∃ t, exec .encode s = .next t ∧ t.fault = some .fNoparam) ∧
    (∃ t, exec .decode s = .next t ∧ t.fault = some .fNoparam) ∧
    (∀ rest, s.host = .command 0x20000100#32 :: rest →
      ∃ t, step s = .next t ∧ t.fault = some (.fIllcmd 0x20000100#32))

/-- Which commands write which registers: what a command does not write is as it was (10_state R11 to R22, the write
sets of R34). -/
def Obligations.RegistersOnlyTheirCommandsWrite : Prop :=
  ∀ (i : Instr) (s t : State), exec i s = .next t → t.fault = none →
    ((∀ n, i ≠ .derive n) →
      t.prN = s.prN ∧ t.prM = s.prM ∧ t.prPL = s.prPL ∧ t.prPT = s.prPT ∧ t.pv = s.pv) ∧
    ((∀ sym, i ≠ .encsym sym) → i ≠ .encode → t.code = s.code ∧ t.len = s.len ∧ t.rv = s.rv) ∧
    (i ≠ .decsym → i ≠ .decode → t.symo = s.symo ∧ t.sv = s.sv) ∧
    (i ≠ .bsclr → i ≠ .deserialize → i ≠ .decsym → i ≠ .encode → i ≠ .decode → t.cur = s.cur)

/-- Which commands write which memories, byte by byte and bit by bit (10_state R28 to R30, 20_memory R40): no command
writes `IBUF`; the two appends leave every bit that was there. The capacities and the host's side are no command's. -/
def Obligations.MemoriesOnlyTheirCommandsWrite : Prop :=
  ∀ (i : Instr) (s t : State), exec i s = .next t → t.fault = none →
    (∀ a, memRead t.ibuf a = memRead s.ibuf a) ∧
    (i ≠ .serialize → i ≠ .encode → i ≠ .decode → ∀ a, memRead t.obuf a = memRead s.obuf a) ∧
    (i = .serialize ∨ i = .decsym ∨ (∃ n, i = .derive n) ∨ (∃ sym, i = .encsym sym) →
      ∀ k, bsBit t.bs k = bsBit s.bs k) ∧
    (i = .pack ∨ (∃ code len, i = .packi code len) → ∀ k, k < s.blen → bsBit t.bs k = bsBit s.bs k) ∧
    t.caps = s.caps ∧ t.host = s.host ∧ t.answer = s.answer ∧ t.draws = s.draws

/-- Every step, whatever the host does, keeps the invariant of 10_state R34. -/
def Obligations.StepKeepsTheInvariant : Prop :=
  ∀ s t : State, s.Inv → step s = .next t → t.Inv

/-- The fields of 10_state R10 are the whole state, and of what R32 keeps out of it only the capacities matter: two
states with the same `ArchState` and capacities, whatever the host's list, the answer and the count of free values, give
the same outcome of every command, with the same cause, and without fault the same `ArchState`. After a fault every
other piece is unspecified (60_exceptions R166), so nothing is said of it. -/
def Obligations.ArchitecturalStateDecides : Prop :=
  ∀ (i : Instr) (s s' : State), s'.toArchState = s.toArchState → s'.caps = s.caps → s.fault = none →
    (∀ t, exec i s = .next t →
      ∃ t', exec i s' = .next t' ∧ t'.fault = t.fault ∧ (t.fault = none → t'.toArchState = t.toArchState)) ∧
    (∀ f, exec i s = .fault f → exec i s' = .fault f)
end

