-- ==== Sys2Proof/Laws/Bits.lean ====
section
/-!
SUPPORT. What the bit and byte functions compute: codewords MSB first, the value of a bit list, the bits of a byte
memory, the serialized buffer and its inverse.
-/

namespace Sys2Proof.Machine

/-! ### Codeword bits -/

@[simp] theorem codeBits_length (code : CodeWord) (len : Nat) : (codeBits code len).length = len := by
  induction len with
  | zero => rfl
  | succ j ih => simp [codeBits, ih]

/-- Index `k` of a codeword of `len` bits holds bit `len - 1 - k` of the code (20_memory R43). -/
theorem codeBits_getElem? (code : CodeWord) (len k : Nat) (hk : k < len) :
    (codeBits code len)[k]? = some (code.getLsbD (len - 1 - k)) := by
  induction len generalizing k with
  | zero => omega
  | succ j ih =>
    cases k with
    | zero => simp [codeBits]
    | succ k =>
      simp only [codeBits, List.getElem?_cons_succ]
      rw [ih k (by omega)]
      congr 2; omega

theorem codeBits_eq_map (code : CodeWord) (len : Nat) :
    codeBits code len = (List.range len).map fun k => code.getLsbD (len - 1 - k) := by
  apply List.ext_getElem?
  intro k
  by_cases hk : k < len
  · rw [codeBits_getElem? code len k hk]; simp [hk]
  · rw [List.getElem?_eq_none (by simp; omega), List.getElem?_eq_none (by simp; omega)]

/-! ### The value of a bit list -/

@[simp] theorem bitsValue_nil : bitsValue [] = 0 := rfl

theorem bitsValue_foldl (bits : List Bool) (v : Nat) :
    bits.foldl (fun v b => 2 * v + b.toNat) v = v * 2 ^ bits.length + bitsValue bits := by
  induction bits generalizing v with
  | nil => simp
  | cons b bits ih =>
    simp only [List.foldl_cons, bitsValue, List.length_cons, Nat.mul_zero, Nat.zero_add]
    rw [ih, ih b.toNat]; ring

theorem bitsValue_cons (b : Bool) (bits : List Bool) :
    bitsValue (b :: bits) = b.toNat * 2 ^ bits.length + bitsValue bits := by
  simp only [bitsValue, List.foldl_cons, Nat.mul_zero, Nat.zero_add]
  exact bitsValue_foldl bits b.toNat

theorem bitsValue_append (a b : List Bool) :
    bitsValue (a ++ b) = bitsValue a * 2 ^ b.length + bitsValue b := by
  simp only [bitsValue, List.foldl_append]
  exact bitsValue_foldl b _

/-- `0 ≤ v < 2^w` (43_symbol_decoder R121). -/
theorem bitsValue_lt (bits : List Bool) : bitsValue bits < 2 ^ bits.length := by
  induction bits with
  | nil => simp
  | cons b bits ih =>
    rw [bitsValue_cons, List.length_cons, pow_succ]
    cases b <;> simp <;> omega

theorem bitsValue_codeBits (code : CodeWord) (len : Nat) :
    bitsValue (codeBits code len) = code.toNat % 2 ^ len := by
  induction len with
  | zero => simp [codeBits, Nat.mod_one]
  | succ j ih =>
    rw [codeBits, bitsValue_cons, ih, codeBits_length, Nat.mod_pow_succ, BitVec.getLsbD, Nat.testBit_eq_decide_div_mod_eq]
    have : code.toNat / 2 ^ j % 2 < 2 := Nat.mod_lt _ (by decide)
    by_cases h : code.toNat / 2 ^ j % 2 = 1
    · simp [h]; ring
    · have h0 : code.toNat / 2 ^ j % 2 = 0 := by omega
      simp [h0]

/-- A bit list is told by its length and its value. -/
theorem bitsValue_inj {a b : List Bool} (hl : a.length = b.length) (hv : bitsValue a = bitsValue b) : a = b := by
  induction a generalizing b with
  | nil => exact (List.length_eq_zero_iff.mp hl.symm).symm
  | cons x a ih =>
    cases b with
    | nil => simp at hl
    | cons y b =>
      simp only [List.length_cons, Nat.add_right_cancel_iff] at hl
      rw [bitsValue_cons, bitsValue_cons, hl] at hv
      have ha := bitsValue_lt a
      have hb := bitsValue_lt b
      rw [hl] at ha
      have hxy : x = y := by
        cases x <;> cases y <;> simp at hv ⊢ <;> omega
      subst hxy
      rw [ih hl (by omega)]

/-- Bit `w - 1 - j` of the value is the bit at index `j`. -/
theorem bitsValue_testBit (bits : List Bool) (j : Nat) (hj : j < bits.length) :
    (bitsValue bits).testBit (bits.length - 1 - j) = bits[j] := by
  induction bits generalizing j with
  | nil => simp at hj
  | cons b bits ih =>
    rw [bitsValue_cons, Nat.mul_comm]
    cases j with
    | zero =>
      rw [Nat.testBit_two_pow_mul_add _ (bitsValue_lt bits)]
      cases b <;> simp
    | succ j =>
      have hj' : j < bits.length := by simpa using hj
      rw [Nat.testBit_two_pow_mul_add _ (bitsValue_lt bits)]
      have : bits.length - 1 - j < bits.length := by omega
      simp only [List.length_cons, Nat.add_sub_cancel, List.getElem_cons_succ]
      have h2 : bits.length - (j + 1) = bits.length - 1 - j := by omega
      rw [h2, if_pos this, ih j hj']

/-! ### Bytes -/

@[simp] theorem byteBits_length (v : Byte) : (byteBits v).length = 8 := rfl

theorem byteBits_getElem? (v : Byte) (j : Nat) (hj : j < 8) : (byteBits v)[j]? = some (v.getLsbD (7 - j)) := by
  interval_cases j <;> rfl

@[simp] theorem bytesBits_length (bytes : List Byte) : (bytesBits bytes).length = 8 * bytes.length := by
  induction bytes with
  | nil => rfl
  | cons v bytes ih =>
    simp only [bytesBits, List.flatMap_cons, List.length_append, byteBits_length, List.length_cons] at ih ⊢
    omega

/-- Bit `i` of the payload is bit `7 - (i mod 8)` of its byte `i div 8` (20_memory R44). -/
theorem bytesBits_getElem? (bytes : List Byte) (i : Nat) :
    (bytesBits bytes)[i]? = bytes[i / 8]?.map fun v => v.getLsbD (7 - i % 8) := by
  induction bytes generalizing i with
  | nil => simp [bytesBits]
  | cons v bytes ih =>
    have hcons : bytesBits (v :: bytes) = byteBits v ++ bytesBits bytes := by simp [bytesBits]
    rw [hcons]
    by_cases hi : i < 8
    · rw [List.getElem?_append_left (by simpa using hi), byteBits_getElem? v i hi]
      simp [Nat.div_eq_of_lt hi, Nat.mod_eq_of_lt hi]
    · rw [List.getElem?_append_right (by simp; omega), byteBits_length, ih]
      have h1 : i / 8 = (i - 8) / 8 + 1 := by omega
      have h2 : i % 8 = (i - 8) % 8 := by omega
      rw [h1, h2, List.getElem?_cons_succ]

/-- Bit `7 - j` of payload byte `q` is bit `8 * q + j` of the sequence, 0 past its end (42_bitstream_packer R104). -/
theorem payloadByte_getLsbD (bits : List Bool) (q j : Nat) (hj : j < 8) :
    (payloadByte bits q).getLsbD (7 - j) = (bits[8 * q + j]?).getD false := by
  have h := bitsValue_testBit ((List.range 8).map fun j => (bsBit bits (8 * q + j)).getD false) j (by simpa using hj)
  simp only [List.getElem_map, List.getElem_range, List.length_map, List.length_range] at h
  have h7 : 8 - 1 - j = 7 - j := by omega
  have hlt : 7 - j < 8 := by omega
  rw [h7] at h
  simp only [payloadByte, BitVec.getLsbD_ofNat, h]
  simp [hlt, bsBit]

/-! ### The serialized buffer -/

@[simp] theorem serialized_length (bits : List Bool) : (serialized bits).length = ceilDiv8 bits.length + 1 := by
  simp [serialized]

theorem unusedBits_lt (n : Nat) : unusedBits n < 8 := by unfold unusedBits; omega

/-- "equals `8 × k − BLEN`" (42_bitstream_packer R104). -/
theorem unusedBits_eq (n : Nat) : 8 * ceilDiv8 n - unusedBits n = n := by
  unfold unusedBits ceilDiv8; omega

/-- `DESERIALIZE` of a serialized buffer gives back the bit sequence (42_bitstream_packer R107). -/
theorem deserialized_serialized (bits : List Bool) :
    deserialized (unusedBits bits.length) ((List.range (ceilDiv8 bits.length)).map (payloadByte bits)) = bits := by
  unfold deserialized
  simp only [List.length_map, List.length_range, unusedBits_eq]
  apply List.ext_getElem?
  intro i
  by_cases hi : i < bits.length
  · have hq : i / 8 < ceilDiv8 bits.length := by unfold ceilDiv8; omega
    have hdm : 8 * (i / 8) + i % 8 = i := by omega
    rw [List.getElem?_take_of_lt hi, bytesBits_getElem?]
    simp only [List.getElem?_map, List.getElem?_range hq, Option.map_some]
    rw [payloadByte_getLsbD bits (i / 8) (i % 8) (by omega), hdm]
    simp [hi]
  · rw [List.getElem?_eq_none (by simp; omega), List.getElem?_eq_none (by omega)]

theorem deserialized_length (unused : Nat) (payload : List Byte) :
    (deserialized unused payload).length = 8 * payload.length - unused := by
  simp [deserialized]

/-- Bit `i` of the deserialized sequence is bit `7 - (i mod 8)` of payload byte `i div 8` (20_memory R44). -/
theorem deserialized_getElem? (unused : Nat) (payload : List Byte) (i : Nat) (hi : i < 8 * payload.length - unused) :
    (deserialized unused payload)[i]? = payload[i / 8]?.map fun v => v.getLsbD (7 - i % 8) := by
  rw [deserialized, List.getElem?_take_of_lt hi, bytesBits_getElem?]

end Sys2Proof.Machine
end

