-- ==== Sys2Proof/Laws/State.lean ====
section
/-!
SUPPORT. One lemma per field per write of the state, and one for the half of the state a write leaves alone, so that
no proof unfolds a record update.
-/

namespace Sys2Proof.Machine

/-! ### `writeParams` -/

@[simp] theorem State.writeParams_prN (s : State) (n m pl pt : Nat) : (s.writeParams n m pl pt).prN = BitVec.ofNat 9 n := rfl
@[simp] theorem State.writeParams_prM (s : State) (n m pl pt : Nat) : (s.writeParams n m pl pt).prM = BitVec.ofNat 4 m := rfl
@[simp] theorem State.writeParams_prPL (s : State) (n m pl pt : Nat) : (s.writeParams n m pl pt).prPL = BitVec.ofNat 8 pl := rfl
@[simp] theorem State.writeParams_prPT (s : State) (n m pl pt : Nat) : (s.writeParams n m pl pt).prPT = BitVec.ofNat 9 pt := rfl
@[simp] theorem State.writeParams_code (s : State) (n m pl pt : Nat) : (s.writeParams n m pl pt).code = s.code := rfl
@[simp] theorem State.writeParams_len (s : State) (n m pl pt : Nat) : (s.writeParams n m pl pt).len = s.len := rfl
@[simp] theorem State.writeParams_symo (s : State) (n m pl pt : Nat) : (s.writeParams n m pl pt).symo = s.symo := rfl
@[simp] theorem State.writeParams_cur (s : State) (n m pl pt : Nat) : (s.writeParams n m pl pt).cur = s.cur := rfl
@[simp] theorem State.writeParams_pv (s : State) (n m pl pt : Nat) : (s.writeParams n m pl pt).pv = true := rfl
@[simp] theorem State.writeParams_rv (s : State) (n m pl pt : Nat) : (s.writeParams n m pl pt).rv = s.rv := rfl
@[simp] theorem State.writeParams_sv (s : State) (n m pl pt : Nat) : (s.writeParams n m pl pt).sv = s.sv := rfl
@[simp] theorem State.writeParams_bs (s : State) (n m pl pt : Nat) : (s.writeParams n m pl pt).bs = s.bs := rfl
@[simp] theorem State.writeParams_ibuf (s : State) (n m pl pt : Nat) : (s.writeParams n m pl pt).ibuf = s.ibuf := rfl
@[simp] theorem State.writeParams_obuf (s : State) (n m pl pt : Nat) : (s.writeParams n m pl pt).obuf = s.obuf := rfl
@[simp] theorem State.writeParams_fault (s : State) (n m pl pt : Nat) : (s.writeParams n m pl pt).fault = s.fault := rfl
@[simp] theorem State.writeParams_caps (s : State) (n m pl pt : Nat) : (s.writeParams n m pl pt).caps = s.caps := rfl
@[simp] theorem State.writeParams_host (s : State) (n m pl pt : Nat) : (s.writeParams n m pl pt).host = s.host := rfl
@[simp] theorem State.writeParams_answer (s : State) (n m pl pt : Nat) : (s.writeParams n m pl pt).answer = s.answer := rfl
@[simp] theorem State.writeParams_draws (s : State) (n m pl pt : Nat) : (s.writeParams n m pl pt).draws = s.draws := rfl
@[simp] theorem State.writeParams_toEnvironment (s : State) (n m pl pt : Nat) : (s.writeParams n m pl pt).toEnvironment = s.toEnvironment := rfl

/-! ### `writePair` -/

@[simp] theorem State.writePair_prN (s : State) (c l : Nat) : (s.writePair c l).prN = s.prN := rfl
@[simp] theorem State.writePair_prM (s : State) (c l : Nat) : (s.writePair c l).prM = s.prM := rfl
@[simp] theorem State.writePair_prPL (s : State) (c l : Nat) : (s.writePair c l).prPL = s.prPL := rfl
@[simp] theorem State.writePair_prPT (s : State) (c l : Nat) : (s.writePair c l).prPT = s.prPT := rfl
@[simp] theorem State.writePair_code (s : State) (c l : Nat) : (s.writePair c l).code = BitVec.ofNat 16 c := rfl
@[simp] theorem State.writePair_len (s : State) (c l : Nat) : (s.writePair c l).len = BitVec.ofNat 8 l := rfl
@[simp] theorem State.writePair_symo (s : State) (c l : Nat) : (s.writePair c l).symo = s.symo := rfl
@[simp] theorem State.writePair_cur (s : State) (c l : Nat) : (s.writePair c l).cur = s.cur := rfl
@[simp] theorem State.writePair_pv (s : State) (c l : Nat) : (s.writePair c l).pv = s.pv := rfl
@[simp] theorem State.writePair_rv (s : State) (c l : Nat) : (s.writePair c l).rv = true := rfl
@[simp] theorem State.writePair_sv (s : State) (c l : Nat) : (s.writePair c l).sv = s.sv := rfl
@[simp] theorem State.writePair_bs (s : State) (c l : Nat) : (s.writePair c l).bs = s.bs := rfl
@[simp] theorem State.writePair_ibuf (s : State) (c l : Nat) : (s.writePair c l).ibuf = s.ibuf := rfl
@[simp] theorem State.writePair_obuf (s : State) (c l : Nat) : (s.writePair c l).obuf = s.obuf := rfl
@[simp] theorem State.writePair_fault (s : State) (c l : Nat) : (s.writePair c l).fault = s.fault := rfl
@[simp] theorem State.writePair_caps (s : State) (c l : Nat) : (s.writePair c l).caps = s.caps := rfl
@[simp] theorem State.writePair_host (s : State) (c l : Nat) : (s.writePair c l).host = s.host := rfl
@[simp] theorem State.writePair_answer (s : State) (c l : Nat) : (s.writePair c l).answer = s.answer := rfl
@[simp] theorem State.writePair_draws (s : State) (c l : Nat) : (s.writePair c l).draws = s.draws := rfl
@[simp] theorem State.writePair_toEnvironment (s : State) (c l : Nat) : (s.writePair c l).toEnvironment = s.toEnvironment := rfl

/-! ### `writeSymbol` -/

@[simp] theorem State.writeSymbol_prN (s : State) (sym adv : Nat) : (s.writeSymbol sym adv).prN = s.prN := rfl
@[simp] theorem State.writeSymbol_prM (s : State) (sym adv : Nat) : (s.writeSymbol sym adv).prM = s.prM := rfl
@[simp] theorem State.writeSymbol_prPL (s : State) (sym adv : Nat) : (s.writeSymbol sym adv).prPL = s.prPL := rfl
@[simp] theorem State.writeSymbol_prPT (s : State) (sym adv : Nat) : (s.writeSymbol sym adv).prPT = s.prPT := rfl
@[simp] theorem State.writeSymbol_code (s : State) (sym adv : Nat) : (s.writeSymbol sym adv).code = s.code := rfl
@[simp] theorem State.writeSymbol_len (s : State) (sym adv : Nat) : (s.writeSymbol sym adv).len = s.len := rfl
@[simp] theorem State.writeSymbol_symo (s : State) (sym adv : Nat) : (s.writeSymbol sym adv).symo = BitVec.ofNat 8 sym := rfl
@[simp] theorem State.writeSymbol_cur (s : State) (sym adv : Nat) : (s.writeSymbol sym adv).cur = s.cur + adv := rfl
@[simp] theorem State.writeSymbol_pv (s : State) (sym adv : Nat) : (s.writeSymbol sym adv).pv = s.pv := rfl
@[simp] theorem State.writeSymbol_rv (s : State) (sym adv : Nat) : (s.writeSymbol sym adv).rv = s.rv := rfl
@[simp] theorem State.writeSymbol_sv (s : State) (sym adv : Nat) : (s.writeSymbol sym adv).sv = true := rfl
@[simp] theorem State.writeSymbol_bs (s : State) (sym adv : Nat) : (s.writeSymbol sym adv).bs = s.bs := rfl
@[simp] theorem State.writeSymbol_ibuf (s : State) (sym adv : Nat) : (s.writeSymbol sym adv).ibuf = s.ibuf := rfl
@[simp] theorem State.writeSymbol_obuf (s : State) (sym adv : Nat) : (s.writeSymbol sym adv).obuf = s.obuf := rfl
@[simp] theorem State.writeSymbol_fault (s : State) (sym adv : Nat) : (s.writeSymbol sym adv).fault = s.fault := rfl
@[simp] theorem State.writeSymbol_caps (s : State) (sym adv : Nat) : (s.writeSymbol sym adv).caps = s.caps := rfl
@[simp] theorem State.writeSymbol_host (s : State) (sym adv : Nat) : (s.writeSymbol sym adv).host = s.host := rfl
@[simp] theorem State.writeSymbol_answer (s : State) (sym adv : Nat) : (s.writeSymbol sym adv).answer = s.answer := rfl
@[simp] theorem State.writeSymbol_draws (s : State) (sym adv : Nat) : (s.writeSymbol sym adv).draws = s.draws := rfl
@[simp] theorem State.writeSymbol_toEnvironment (s : State) (sym adv : Nat) : (s.writeSymbol sym adv).toEnvironment = s.toEnvironment := rfl

/-! ### `writeBs` -/

@[simp] theorem State.writeBs_prN (s : State) (b : List Bool) : (s.writeBs b).prN = s.prN := rfl
@[simp] theorem State.writeBs_prM (s : State) (b : List Bool) : (s.writeBs b).prM = s.prM := rfl
@[simp] theorem State.writeBs_prPL (s : State) (b : List Bool) : (s.writeBs b).prPL = s.prPL := rfl
@[simp] theorem State.writeBs_prPT (s : State) (b : List Bool) : (s.writeBs b).prPT = s.prPT := rfl
@[simp] theorem State.writeBs_code (s : State) (b : List Bool) : (s.writeBs b).code = s.code := rfl
@[simp] theorem State.writeBs_len (s : State) (b : List Bool) : (s.writeBs b).len = s.len := rfl
@[simp] theorem State.writeBs_symo (s : State) (b : List Bool) : (s.writeBs b).symo = s.symo := rfl
@[simp] theorem State.writeBs_cur (s : State) (b : List Bool) : (s.writeBs b).cur = s.cur := rfl
@[simp] theorem State.writeBs_pv (s : State) (b : List Bool) : (s.writeBs b).pv = s.pv := rfl
@[simp] theorem State.writeBs_rv (s : State) (b : List Bool) : (s.writeBs b).rv = s.rv := rfl
@[simp] theorem State.writeBs_sv (s : State) (b : List Bool) : (s.writeBs b).sv = s.sv := rfl
@[simp] theorem State.writeBs_bs (s : State) (b : List Bool) : (s.writeBs b).bs = b := rfl
@[simp] theorem State.writeBs_ibuf (s : State) (b : List Bool) : (s.writeBs b).ibuf = s.ibuf := rfl
@[simp] theorem State.writeBs_obuf (s : State) (b : List Bool) : (s.writeBs b).obuf = s.obuf := rfl
@[simp] theorem State.writeBs_fault (s : State) (b : List Bool) : (s.writeBs b).fault = s.fault := rfl
@[simp] theorem State.writeBs_caps (s : State) (b : List Bool) : (s.writeBs b).caps = s.caps := rfl
@[simp] theorem State.writeBs_host (s : State) (b : List Bool) : (s.writeBs b).host = s.host := rfl
@[simp] theorem State.writeBs_answer (s : State) (b : List Bool) : (s.writeBs b).answer = s.answer := rfl
@[simp] theorem State.writeBs_draws (s : State) (b : List Bool) : (s.writeBs b).draws = s.draws := rfl
@[simp] theorem State.writeBs_toEnvironment (s : State) (b : List Bool) : (s.writeBs b).toEnvironment = s.toEnvironment := rfl

/-! ### `writeCur` -/

@[simp] theorem State.writeCur_prN (s : State) (c : Nat) : (s.writeCur c).prN = s.prN := rfl
@[simp] theorem State.writeCur_prM (s : State) (c : Nat) : (s.writeCur c).prM = s.prM := rfl
@[simp] theorem State.writeCur_prPL (s : State) (c : Nat) : (s.writeCur c).prPL = s.prPL := rfl
@[simp] theorem State.writeCur_prPT (s : State) (c : Nat) : (s.writeCur c).prPT = s.prPT := rfl
@[simp] theorem State.writeCur_code (s : State) (c : Nat) : (s.writeCur c).code = s.code := rfl
@[simp] theorem State.writeCur_len (s : State) (c : Nat) : (s.writeCur c).len = s.len := rfl
@[simp] theorem State.writeCur_symo (s : State) (c : Nat) : (s.writeCur c).symo = s.symo := rfl
@[simp] theorem State.writeCur_cur (s : State) (c : Nat) : (s.writeCur c).cur = c := rfl
@[simp] theorem State.writeCur_pv (s : State) (c : Nat) : (s.writeCur c).pv = s.pv := rfl
@[simp] theorem State.writeCur_rv (s : State) (c : Nat) : (s.writeCur c).rv = s.rv := rfl
@[simp] theorem State.writeCur_sv (s : State) (c : Nat) : (s.writeCur c).sv = s.sv := rfl
@[simp] theorem State.writeCur_bs (s : State) (c : Nat) : (s.writeCur c).bs = s.bs := rfl
@[simp] theorem State.writeCur_ibuf (s : State) (c : Nat) : (s.writeCur c).ibuf = s.ibuf := rfl
@[simp] theorem State.writeCur_obuf (s : State) (c : Nat) : (s.writeCur c).obuf = s.obuf := rfl
@[simp] theorem State.writeCur_fault (s : State) (c : Nat) : (s.writeCur c).fault = s.fault := rfl
@[simp] theorem State.writeCur_caps (s : State) (c : Nat) : (s.writeCur c).caps = s.caps := rfl
@[simp] theorem State.writeCur_host (s : State) (c : Nat) : (s.writeCur c).host = s.host := rfl
@[simp] theorem State.writeCur_answer (s : State) (c : Nat) : (s.writeCur c).answer = s.answer := rfl
@[simp] theorem State.writeCur_draws (s : State) (c : Nat) : (s.writeCur c).draws = s.draws := rfl
@[simp] theorem State.writeCur_toEnvironment (s : State) (c : Nat) : (s.writeCur c).toEnvironment = s.toEnvironment := rfl

/-! ### `writeObuf` -/

@[simp] theorem State.writeObuf_prN (s : State) (b : List Byte) : (s.writeObuf b).prN = s.prN := rfl
@[simp] theorem State.writeObuf_prM (s : State) (b : List Byte) : (s.writeObuf b).prM = s.prM := rfl
@[simp] theorem State.writeObuf_prPL (s : State) (b : List Byte) : (s.writeObuf b).prPL = s.prPL := rfl
@[simp] theorem State.writeObuf_prPT (s : State) (b : List Byte) : (s.writeObuf b).prPT = s.prPT := rfl
@[simp] theorem State.writeObuf_code (s : State) (b : List Byte) : (s.writeObuf b).code = s.code := rfl
@[simp] theorem State.writeObuf_len (s : State) (b : List Byte) : (s.writeObuf b).len = s.len := rfl
@[simp] theorem State.writeObuf_symo (s : State) (b : List Byte) : (s.writeObuf b).symo = s.symo := rfl
@[simp] theorem State.writeObuf_cur (s : State) (b : List Byte) : (s.writeObuf b).cur = s.cur := rfl
@[simp] theorem State.writeObuf_pv (s : State) (b : List Byte) : (s.writeObuf b).pv = s.pv := rfl
@[simp] theorem State.writeObuf_rv (s : State) (b : List Byte) : (s.writeObuf b).rv = s.rv := rfl
@[simp] theorem State.writeObuf_sv (s : State) (b : List Byte) : (s.writeObuf b).sv = s.sv := rfl
@[simp] theorem State.writeObuf_bs (s : State) (b : List Byte) : (s.writeObuf b).bs = s.bs := rfl
@[simp] theorem State.writeObuf_ibuf (s : State) (b : List Byte) : (s.writeObuf b).ibuf = s.ibuf := rfl
@[simp] theorem State.writeObuf_obuf (s : State) (b : List Byte) : (s.writeObuf b).obuf = b := rfl
@[simp] theorem State.writeObuf_fault (s : State) (b : List Byte) : (s.writeObuf b).fault = s.fault := rfl
@[simp] theorem State.writeObuf_caps (s : State) (b : List Byte) : (s.writeObuf b).caps = s.caps := rfl
@[simp] theorem State.writeObuf_host (s : State) (b : List Byte) : (s.writeObuf b).host = s.host := rfl
@[simp] theorem State.writeObuf_answer (s : State) (b : List Byte) : (s.writeObuf b).answer = s.answer := rfl
@[simp] theorem State.writeObuf_draws (s : State) (b : List Byte) : (s.writeObuf b).draws = s.draws := rfl
@[simp] theorem State.writeObuf_toEnvironment (s : State) (b : List Byte) : (s.writeObuf b).toEnvironment = s.toEnvironment := rfl

/-! ### `writeIbuf` -/

@[simp] theorem State.writeIbuf_prN (s : State) (b : List Byte) : (s.writeIbuf b).prN = s.prN := rfl
@[simp] theorem State.writeIbuf_prM (s : State) (b : List Byte) : (s.writeIbuf b).prM = s.prM := rfl
@[simp] theorem State.writeIbuf_prPL (s : State) (b : List Byte) : (s.writeIbuf b).prPL = s.prPL := rfl
@[simp] theorem State.writeIbuf_prPT (s : State) (b : List Byte) : (s.writeIbuf b).prPT = s.prPT := rfl
@[simp] theorem State.writeIbuf_code (s : State) (b : List Byte) : (s.writeIbuf b).code = s.code := rfl
@[simp] theorem State.writeIbuf_len (s : State) (b : List Byte) : (s.writeIbuf b).len = s.len := rfl
@[simp] theorem State.writeIbuf_symo (s : State) (b : List Byte) : (s.writeIbuf b).symo = s.symo := rfl
@[simp] theorem State.writeIbuf_cur (s : State) (b : List Byte) : (s.writeIbuf b).cur = s.cur := rfl
@[simp] theorem State.writeIbuf_pv (s : State) (b : List Byte) : (s.writeIbuf b).pv = s.pv := rfl
@[simp] theorem State.writeIbuf_rv (s : State) (b : List Byte) : (s.writeIbuf b).rv = s.rv := rfl
@[simp] theorem State.writeIbuf_sv (s : State) (b : List Byte) : (s.writeIbuf b).sv = s.sv := rfl
@[simp] theorem State.writeIbuf_bs (s : State) (b : List Byte) : (s.writeIbuf b).bs = s.bs := rfl
@[simp] theorem State.writeIbuf_ibuf (s : State) (b : List Byte) : (s.writeIbuf b).ibuf = b := rfl
@[simp] theorem State.writeIbuf_obuf (s : State) (b : List Byte) : (s.writeIbuf b).obuf = s.obuf := rfl
@[simp] theorem State.writeIbuf_fault (s : State) (b : List Byte) : (s.writeIbuf b).fault = s.fault := rfl
@[simp] theorem State.writeIbuf_caps (s : State) (b : List Byte) : (s.writeIbuf b).caps = s.caps := rfl
@[simp] theorem State.writeIbuf_host (s : State) (b : List Byte) : (s.writeIbuf b).host = s.host := rfl
@[simp] theorem State.writeIbuf_answer (s : State) (b : List Byte) : (s.writeIbuf b).answer = s.answer := rfl
@[simp] theorem State.writeIbuf_draws (s : State) (b : List Byte) : (s.writeIbuf b).draws = s.draws := rfl
@[simp] theorem State.writeIbuf_toEnvironment (s : State) (b : List Byte) : (s.writeIbuf b).toEnvironment = s.toEnvironment := rfl

/-! ### `reply` -/

@[simp] theorem State.reply_prN (s : State) (a : Answer) : (s.reply a).prN = s.prN := rfl
@[simp] theorem State.reply_prM (s : State) (a : Answer) : (s.reply a).prM = s.prM := rfl
@[simp] theorem State.reply_prPL (s : State) (a : Answer) : (s.reply a).prPL = s.prPL := rfl
@[simp] theorem State.reply_prPT (s : State) (a : Answer) : (s.reply a).prPT = s.prPT := rfl
@[simp] theorem State.reply_code (s : State) (a : Answer) : (s.reply a).code = s.code := rfl
@[simp] theorem State.reply_len (s : State) (a : Answer) : (s.reply a).len = s.len := rfl
@[simp] theorem State.reply_symo (s : State) (a : Answer) : (s.reply a).symo = s.symo := rfl
@[simp] theorem State.reply_cur (s : State) (a : Answer) : (s.reply a).cur = s.cur := rfl
@[simp] theorem State.reply_pv (s : State) (a : Answer) : (s.reply a).pv = s.pv := rfl
@[simp] theorem State.reply_rv (s : State) (a : Answer) : (s.reply a).rv = s.rv := rfl
@[simp] theorem State.reply_sv (s : State) (a : Answer) : (s.reply a).sv = s.sv := rfl
@[simp] theorem State.reply_bs (s : State) (a : Answer) : (s.reply a).bs = s.bs := rfl
@[simp] theorem State.reply_ibuf (s : State) (a : Answer) : (s.reply a).ibuf = s.ibuf := rfl
@[simp] theorem State.reply_obuf (s : State) (a : Answer) : (s.reply a).obuf = s.obuf := rfl
@[simp] theorem State.reply_fault (s : State) (a : Answer) : (s.reply a).fault = s.fault := rfl
@[simp] theorem State.reply_caps (s : State) (a : Answer) : (s.reply a).caps = s.caps := rfl
@[simp] theorem State.reply_host (s : State) (a : Answer) : (s.reply a).host = s.host := rfl
@[simp] theorem State.reply_answer (s : State) (a : Answer) : (s.reply a).answer = some a := rfl
@[simp] theorem State.reply_draws (s : State) (a : Answer) : (s.reply a).draws = s.draws := rfl
@[simp] theorem State.reply_toArchState (s : State) (a : Answer) : (s.reply a).toArchState = s.toArchState := rfl

/-! ### `takeAction` -/

@[simp] theorem State.takeAction_prN (s : State) (r : List HostAction) : (s.takeAction r).prN = s.prN := rfl
@[simp] theorem State.takeAction_prM (s : State) (r : List HostAction) : (s.takeAction r).prM = s.prM := rfl
@[simp] theorem State.takeAction_prPL (s : State) (r : List HostAction) : (s.takeAction r).prPL = s.prPL := rfl
@[simp] theorem State.takeAction_prPT (s : State) (r : List HostAction) : (s.takeAction r).prPT = s.prPT := rfl
@[simp] theorem State.takeAction_code (s : State) (r : List HostAction) : (s.takeAction r).code = s.code := rfl
@[simp] theorem State.takeAction_len (s : State) (r : List HostAction) : (s.takeAction r).len = s.len := rfl
@[simp] theorem State.takeAction_symo (s : State) (r : List HostAction) : (s.takeAction r).symo = s.symo := rfl
@[simp] theorem State.takeAction_cur (s : State) (r : List HostAction) : (s.takeAction r).cur = s.cur := rfl
@[simp] theorem State.takeAction_pv (s : State) (r : List HostAction) : (s.takeAction r).pv = s.pv := rfl
@[simp] theorem State.takeAction_rv (s : State) (r : List HostAction) : (s.takeAction r).rv = s.rv := rfl
@[simp] theorem State.takeAction_sv (s : State) (r : List HostAction) : (s.takeAction r).sv = s.sv := rfl
@[simp] theorem State.takeAction_bs (s : State) (r : List HostAction) : (s.takeAction r).bs = s.bs := rfl
@[simp] theorem State.takeAction_ibuf (s : State) (r : List HostAction) : (s.takeAction r).ibuf = s.ibuf := rfl
@[simp] theorem State.takeAction_obuf (s : State) (r : List HostAction) : (s.takeAction r).obuf = s.obuf := rfl
@[simp] theorem State.takeAction_fault (s : State) (r : List HostAction) : (s.takeAction r).fault = s.fault := rfl
@[simp] theorem State.takeAction_caps (s : State) (r : List HostAction) : (s.takeAction r).caps = s.caps := rfl
@[simp] theorem State.takeAction_host (s : State) (r : List HostAction) : (s.takeAction r).host = r := rfl
@[simp] theorem State.takeAction_answer (s : State) (r : List HostAction) : (s.takeAction r).answer = none := rfl
@[simp] theorem State.takeAction_draws (s : State) (r : List HostAction) : (s.takeAction r).draws = s.draws := rfl
@[simp] theorem State.takeAction_toArchState (s : State) (r : List HostAction) : (s.takeAction r).toArchState = s.toArchState := rfl

/-! ### Faults, reset -/

@[simp] theorem ArchState.faulted_fault (c : Cause) (u : Config.Unspecified) : (ArchState.faulted c u).fault = some c := rfl
@[simp] theorem ArchState.reset_fault : ArchState.reset.fault = none := rfl
@[simp] theorem takeFault_fault (c : Cause) (s : State) : (takeFault c s).fault = some c := rfl
@[simp] theorem takeFault_toArchState (c : Cause) (s : State) :
    (takeFault c s).toArchState = ArchState.faulted c (Config.unspecified s.draws) := rfl
@[simp] theorem takeFault_caps (c : Cause) (s : State) : (takeFault c s).caps = s.caps := rfl
@[simp] theorem takeFault_host (c : Cause) (s : State) : (takeFault c s).host = s.host := rfl
@[simp] theorem takeFault_answer (c : Cause) (s : State) : (takeFault c s).answer = none := rfl
@[simp] theorem takeFault_draws (c : Cause) (s : State) : (takeFault c s).draws = s.draws + 1 := rfl
@[simp] theorem applyReset_fault (s : State) : (applyReset s).fault = none := rfl
@[simp] theorem applyReset_toArchState (s : State) : (applyReset s).toArchState = ArchState.reset := rfl
@[simp] theorem applyReset_caps (s : State) : (applyReset s).caps = s.caps := rfl
@[simp] theorem applyReset_host (s : State) : (applyReset s).host = s.host := rfl
@[simp] theorem applyReset_answer (s : State) : (applyReset s).answer = none := rfl
@[simp] theorem applyReset_draws (s : State) : (applyReset s).draws = s.draws := rfl

end Sys2Proof.Machine
end

