-- ==== Sys2Proof/Laws/Ops.lean ====
section
/-!
SUPPORT. One lemma per shared operation that says everything it can do: sequencing, capacities, the appends, and how a
command ends.
-/

namespace Sys2Proof.Machine

/-! ### Sequencing -/

@[simp] theorem Result.done_andThen (s : State) (f : State → Result) : (Result.done s).andThen f = f s := rfl
@[simp] theorem Result.raised_andThen (c : Cause) (f : State → Result) : (Result.raised c).andThen f = .raised c := rfl
@[simp] theorem Result.endless_andThen (f : State → Result) : Result.endless.andThen f = .endless := rfl

theorem Result.andThen_assoc (r : Result) (f g : State → Result) :
    (r.andThen f).andThen g = r.andThen fun s => (f s).andThen g := by
  cases r <;> rfl

theorem Result.andThen_eq_done {r : Result} {f : State → Result} {t : State} :
    r.andThen f = .done t ↔ ∃ s, r = .done s ∧ f s = .done t := by
  cases r <;> simp

theorem Result.andThen_eq_raised {r : Result} {f : State → Result} {c : Cause} :
    r.andThen f = .raised c ↔ r = .raised c ∨ ∃ s, r = .done s ∧ f s = .raised c := by
  cases r <;> simp

theorem Result.andThen_eq_endless {r : Result} {f : State → Result} :
    r.andThen f = .endless ↔ r = .endless ∨ ∃ s, r = .done s ∧ f s = .endless := by
  cases r <;> simp

/-! ### Capacities -/

@[simp] theorem admits_none (n : Nat) : admits none n = true := rfl
@[simp] theorem admits_some (k n : Nat) : admits (some k) n = decide (n ≤ k) := rfl

theorem admits_mono {cap : Capacity} {a b : Nat} (h : a ≤ b) (hb : admits cap b = true) : admits cap a = true := by
  cases cap with
  | none => rfl
  | some k => simp only [admits_some, decide_eq_true_eq] at *; omega

/-! ### Appends -/

theorem bsAppend_eq (b : Bool) (s : State) :
    bsAppend b s =
      if admits s.caps.bs (s.bs.length + 1) = true then .done (s.writeBs (s.bs ++ [b])) else .raised (.fCap .bs) := rfl

theorem obufAppend_eq (v : Byte) (s : State) :
    obufAppend v s =
      if admits s.caps.obuf (s.obuf.length + 1) = true then .done (s.writeObuf (s.obuf ++ [v]))
      else .raised (.fCap .obuf) := rfl

theorem obufAppend_fits {v : Byte} {s : State} (h : admits s.caps.obuf (s.obuf.length + 1) = true) :
    obufAppend v s = .done (s.writeObuf (s.obuf ++ [v])) := by
  rw [obufAppend_eq, if_pos h]

/-- A run of bit appends: all of them when the capacity admits the final length, else `F_CAP` (42_bitstream_packer
R100). -/
theorem bsAppendAll_eq (bits : List Bool) (s : State) :
    bsAppendAll bits s =
      if bits = [] ∨ admits s.caps.bs (s.bs.length + bits.length) = true then .done (s.writeBs (s.bs ++ bits))
      else .raised (.fCap .bs) := by
  induction bits generalizing s with
  | nil => simp [bsAppendAll, State.writeBs]
  | cons b bits ih =>
    simp only [bsAppendAll, bsAppend_eq]
    by_cases h1 : admits s.caps.bs (s.bs.length + 1) = true
    · rw [if_pos h1, Result.done_andThen, ih]
      simp only [State.writeBs_caps, State.writeBs_bs, List.length_append, List.length_cons, List.length_nil,
        List.append_assoc, List.singleton_append]
      have e : s.bs.length + (0 + 1) + bits.length = s.bs.length + (bits.length + 1) := by omega
      rw [e]
      by_cases hb : bits = []
      · subst hb; simp [h1]; rfl
      · simp [hb]; rfl
    · have h2 : ¬ admits s.caps.bs (s.bs.length + (b :: bits).length) = true := fun h => h1 (admits_mono (by simp) h)
      rw [if_neg h1, if_neg (by simp only [reduceCtorEq, false_or]; exact h2)]
      rfl

theorem bsAppendAll_fits {bits : List Bool} {s : State} (h : admits s.caps.bs (s.bs.length + bits.length) = true) :
    bsAppendAll bits s = .done (s.writeBs (s.bs ++ bits)) := by
  rw [bsAppendAll_eq, if_pos (Or.inr h)]

/-- A run of byte appends: all of them when the capacity admits the final length, else `F_CAP` (00_scope R38). -/
theorem obufAppendAll_eq (bytes : List Byte) (s : State) :
    obufAppendAll bytes s =
      if bytes = [] ∨ admits s.caps.obuf (s.obuf.length + bytes.length) = true then
        .done (s.writeObuf (s.obuf ++ bytes))
      else .raised (.fCap .obuf) := by
  induction bytes generalizing s with
  | nil => simp [obufAppendAll, State.writeObuf]
  | cons v bytes ih =>
    simp only [obufAppendAll, obufAppend_eq]
    by_cases h1 : admits s.caps.obuf (s.obuf.length + 1) = true
    · rw [if_pos h1, Result.done_andThen, ih]
      simp only [State.writeObuf_caps, State.writeObuf_obuf, List.length_append, List.length_cons, List.length_nil,
        List.append_assoc, List.singleton_append]
      have e : s.obuf.length + (0 + 1) + bytes.length = s.obuf.length + (bytes.length + 1) := by omega
      rw [e]
      by_cases hb : bytes = []
      · subst hb; simp [h1]; rfl
      · simp [hb]; rfl
    · have h2 : ¬ admits s.caps.obuf (s.obuf.length + (v :: bytes).length) = true :=
        fun h => h1 (admits_mono (by simp) h)
      rw [if_neg h1, if_neg (by simp only [reduceCtorEq, false_or]; exact h2)]
      rfl

/-! ### How a command ends -/

theorem runCommand_faulted {s : State} {c : Cause} (h : s.fault = some c) (body : State → Result) :
    runCommand body s = .next (takeFault c s) := by
  simp [runCommand, h]

theorem runCommand_done {s t : State} {body : State → Result} (hf : s.fault = none) (h : body s = .done t) :
    runCommand body s = .next t := by
  simp [runCommand, hf, h]

theorem runCommand_raised {s : State} {c : Cause} {body : State → Result} (hf : s.fault = none)
    (h : body s = .raised c) : runCommand body s = .next (takeFault c s) := by
  simp [runCommand, hf, h]

/-- A next state without a fault is the one the pseudocode reached from a state without a fault. -/
theorem runCommand_next_done {s t : State} {body : State → Result} (h : runCommand body s = .next t)
    (ht : t.fault = none) : s.fault = none ∧ body s = .done t := by
  unfold runCommand at h
  split at h
  · cases h; simp at ht
  · rename_i hf
    refine ⟨hf, ?_⟩
    split at h
    · rename_i u hu; cases h; exact hu
    · cases h; simp at ht
    · cases h

/-- A next state is the one the pseudocode reached, or the one a fault leaves. -/
theorem runCommand_next {s t : State} {body : State → Result} (h : runCommand body s = .next t) :
    (s.fault = none ∧ body s = .done t) ∨ ∃ c, t = takeFault c s := by
  unfold runCommand at h
  split at h
  · cases h; exact .inr ⟨_, rfl⟩
  · rename_i hf
    split at h
    · rename_i u hu; cases h; exact .inl ⟨hf, hu⟩
    · cases h; exact .inr ⟨_, rfl⟩
    · cases h

end Sys2Proof.Machine
end

