-- ==== Sys2Proof/Laws/Codes.lean ====
section
/-!
SUPPORT. The arithmetic of the parameters and of the code (45_laws, part 1): `floor_log2`, the ranges of the parameter
registers, and the closed forms of a codeword's value and length.
-/

namespace Sys2Proof.Machine

/-! ### `floor_log2` -/

theorem floorLog2Fuel_spec (fuel n : Nat) (h1 : 1 ≤ n) (hf : n ≤ fuel) :
    2 ^ floorLog2Fuel fuel n ≤ n ∧ n < 2 ^ (floorLog2Fuel fuel n + 1) := by
  induction fuel generalizing n with
  | zero => omega
  | succ fuel ih =>
    unfold floorLog2Fuel
    split
    · simp; omega
    · obtain ⟨h2, h3⟩ := ih (n / 2) (by omega) (by omega)
      constructor
      · rw [pow_succ]; omega
      · rw [pow_succ]; omega

/-- `floor_log2(n)` is "the largest natural number `k` with `2^k ≤ n`" (40_parameter_deriver R81). -/
theorem floorLog2_spec {n : Nat} (h : 1 ≤ n) : 2 ^ floorLog2 n ≤ n ∧ n < 2 ^ (floorLog2 n + 1) :=
  floorLog2Fuel_spec n n h (Nat.le_refl n)

theorem floorLog2_unique {n k : Nat} (h1 : 2 ^ k ≤ n) (h2 : n < 2 ^ (k + 1)) : floorLog2 n = k := by
  obtain ⟨h3, h4⟩ := floorLog2_spec (n := n) (Nat.le_trans Nat.one_le_two_pow h1)
  have a := (Nat.pow_lt_pow_iff_right (a := 2) (by decide)).mp (Nat.lt_of_le_of_lt h3 h2)
  have b := (Nat.pow_lt_pow_iff_right (a := 2) (by decide)).mp (Nat.lt_of_le_of_lt h1 h4)
  omega

/-! ### The parameters -/

/-- The numbers behind the parameter registers: `n` from 1 to 256 and what `DERIVE` makes of it. -/
structure Params (n m pl pt : Nat) : Prop where
  n_pos : 1 ≤ n
  n_le : n ≤ 256
  pow_le : 2 ^ m ≤ n
  lt_pow : n < 2 ^ (m + 1)
  pl_eq : pl = n - 2 ^ m
  pt_eq : pt = 2 ^ m - pl

theorem State.ParamsOk.params {s : State} (h : s.ParamsOk) :
    Params s.prN.toNat s.prM.toNat s.prPL.toNat s.prPT.toNat :=
  ⟨h.1, h.2.1, h.2.2.1, h.2.2.2.1, h.2.2.2.2.1, h.2.2.2.2.2⟩

theorem params_of_size {n : Nat} (h1 : 1 ≤ n) (h2 : n ≤ 256) :
    Params n (floorLog2 n) (longPrefixes n) (threshold n) :=
  ⟨h1, h2, (floorLog2_spec h1).1, (floorLog2_spec h1).2, rfl, rfl⟩

section
variable {n m pl pt : Nat}

/-- Parameter identity and class sizes (45_laws R145, R146). -/
theorem Params.facts (h : Params n m pl pt) : pl + pt = 2 ^ m ∧ pl < 2 ^ m ∧ 1 ≤ pt ∧ pt ≤ n ∧ n = pt + 2 * pl := by
  obtain ⟨h1, h2, h3, h4, h5, h6⟩ := h
  rw [pow_succ] at h4
  omega

theorem Params.m_le (h : Params n m pl pt) : m ≤ 8 := by
  have h1 : 2 ^ m < 2 ^ 9 := Nat.lt_of_le_of_lt h.pow_le (by have := h.n_le; omega)
  have := (Nat.pow_lt_pow_iff_right (a := 2) (by decide)).mp h1
  omega

/-- `m = 8` only for `n = 256` (40_parameter_deriver R84). -/
theorem Params.m_eq_eight (h : Params n m pl pt) : m = 8 ↔ n = 256 := by
  constructor
  · intro hm; have := h.pow_le; have := h.n_le; subst hm; omega
  · intro hn
    have h1 : 2 ^ 8 < 2 ^ (m + 1) := by have := h.lt_pow; omega
    have := (Nat.pow_lt_pow_iff_right (a := 2) (by decide)).mp h1
    have := h.m_le
    omega

theorem Params.m_eq_zero (h : Params n m pl pt) : m = 0 ↔ n = 1 := by
  constructor
  · intro hm; have := h.lt_pow; have := h.n_pos; subst hm; omega
  · intro hn
    by_contra hm
    have := h.pow_le
    have : 2 ^ 1 ≤ 2 ^ m := Nat.pow_le_pow_right (by decide) (by omega)
    omega

/-! ### The code -/

/-- A short codeword is the symbol itself (41_symbol_encoder R91: the mask changes nothing). -/
theorem Params.code_short (h : Params n m pl pt) {sym : Nat} (hs : sym < pt) : symbolCode m pt sym = sym := by
  have := h.facts
  rw [symbolCode, if_pos hs, Nat.mod_eq_of_lt (by omega)]

/-- A long codeword is `sym + pt` (45_laws R158). -/
theorem Params.code_long (h : Params n m pl pt) {sym : Nat} (hs : pt ≤ sym) (hn : sym < n) :
    symbolCode m pt sym = sym + pt := by
  have := h.facts
  rw [symbolCode, if_neg (by omega), Nat.mod_eq_of_lt (by omega)]
  omega

theorem symbolLength_short {sym : Nat} (hs : sym < pt) : symbolLength m pt sym = m := by
  rw [symbolLength, if_pos hs]

theorem symbolLength_long {sym : Nat} (hs : pt ≤ sym) : symbolLength m pt sym = m + 1 := by
  rw [symbolLength, if_neg (by omega)]

/-- `CODE < 2^LEN` (45_laws R149). -/
theorem Params.code_lt (h : Params n m pl pt) {sym : Nat} (hn : sym < n) :
    symbolCode m pt sym < 2 ^ symbolLength m pt sym := by
  have := h.facts
  by_cases hs : sym < pt
  · rw [h.code_short hs, symbolLength_short hs]; omega
  · rw [h.code_long (by omega) hn, symbolLength_long (by omega), pow_succ]; omega

/-- The largest length is 8 (45_laws R148). -/
theorem Params.length_le (h : Params n m pl pt) {sym : Nat} (hn : sym < n) : symbolLength m pt sym ≤ 8 := by
  by_cases hs : sym < pt
  · rw [symbolLength_short hs]; exact h.m_le
  · rw [symbolLength_long (by omega)]
    have h8 := h.m_eq_eight
    have hm := h.m_le
    by_contra hc
    have hm8 : m = 8 := by omega
    have hn256 := h8.mp hm8
    have := h.facts
    have := h.pt_eq
    have := h.pl_eq
    subst hm8
    omega

theorem Params.code_lt_256 (h : Params n m pl pt) {sym : Nat} (hn : sym < n) : symbolCode m pt sym < 256 :=
  Nat.lt_of_lt_of_le (h.code_lt hn) (by
    have := Nat.pow_le_pow_right (n := 2) (by decide) (h.length_le hn); simpa using this)

/-- What `DECSYM` computes from the value of a codeword's first `m` bits and its suffix bit is the symbol (45_laws
R153). -/
theorem Params.decode_long (h : Params n m pl pt) {sym : Nat} (hs : pt ≤ sym) (hn : sym < n) :
    pt ≤ (sym + pt) / 2 ∧ (sym + pt) / 2 < 2 ^ m ∧ pt + ((sym + pt) / 2 - pt) * 2 + (sym + pt) % 2 = sym := by
  have := h.facts
  omega

/-- A decoded symbol is below `n` (45_laws R157). -/
theorem Params.decoded_lt (h : Params n m pl pt) {v b : Nat} (hv : v < 2 ^ m) (hb : b ≤ 1) (hp : pt ≤ v) :
    pt + (v - pt) * 2 + b < n := by
  have := h.facts
  omega

end

/-- `DERIVE`'s writes fit their registers (45_laws R141) and satisfy 10_state R15. -/
theorem writeParams_paramsOk (s : State) {n : Nat} (h1 : 1 ≤ n) (h2 : n ≤ 256) :
    (s.writeParams n (floorLog2 n) (longPrefixes n) (threshold n)).ParamsOk := by
  have hp := params_of_size h1 h2
  have hf := hp.facts
  have hm := hp.m_le
  have hpow := hp.pow_le
  have e1 : n % 2 ^ 9 = n := Nat.mod_eq_of_lt (by omega)
  have e2 : floorLog2 n % 2 ^ 4 = floorLog2 n := Nat.mod_eq_of_lt (by omega)
  have e3 : longPrefixes n % 2 ^ 8 = longPrefixes n := Nat.mod_eq_of_lt (by omega)
  have e4 : threshold n % 2 ^ 9 = threshold n := Nat.mod_eq_of_lt (by omega)
  simp only [State.ParamsOk, State.writeParams_prN, State.writeParams_prM, State.writeParams_prPL,
    State.writeParams_prPT, BitVec.toNat_ofNat, e1, e2, e3, e4]
  exact ⟨h1, h2, hp.pow_le, hp.lt_pow, hp.pl_eq, hp.pt_eq⟩

@[simp] theorem codeword_length (s : State) (sym : Byte) :
    (s.codeword sym).length = symbolLength s.prM.toNat s.prPT.toNat sym.toNat := by
  simp [State.codeword]

/-- A codeword depends on the parameter registers only (41_symbol_encoder R92). -/
theorem codeword_congr {s t : State} (hm : t.prM = s.prM) (hp : t.prPT = s.prPT) (sym : Byte) :
    t.codeword sym = s.codeword sym := by
  simp [State.codeword, hm, hp]

/-- The value of a codeword's bits is its code. -/
theorem codeword_value {s : State} (h : s.ParamsOk) {sym : Byte} (hn : sym.toNat < s.prN.toNat) :
    bitsValue (s.codeword sym) = symbolCode s.prM.toNat s.prPT.toNat sym.toNat := by
  have h1 := h.params.code_lt hn
  have h2 := h.params.code_lt_256 hn
  rw [State.codeword, bitsValue_codeBits, BitVec.toNat_ofNat, Nat.mod_eq_of_lt (a := symbolCode _ _ _) (by omega),
    Nat.mod_eq_of_lt h1]

end Sys2Proof.Machine
end

