-- ==== Sys2Proof/Laws/Commands.lean ====
section
/-!
SUPPORT. One lemma per command's pseudocode that says what it does, and what it leaves as it was; and that no command
but `DECODE` can fail to end (70_reset R191).
-/

namespace Sys2Proof.Machine

/-! ### `DERIVE`, `ENCSYM` -/

theorem deriveParams_eq (n : AlphabetSize) (s : State) :
    deriveParams n s =
      if 1 ≤ n.toNat ∧ n.toNat ≤ 256 then
        .done (s.writeParams n.toNat (floorLog2 n.toNat) (longPrefixes n.toNat) (threshold n.toNat))
      else .raised (.fN n) := by
  unfold deriveParams requireAlphabet
  by_cases h : 1 ≤ n.toNat ∧ n.toNat ≤ 256
  · rw [if_pos h, if_neg (by omega)]
  · rw [if_neg h, if_pos (by omega)]

theorem encodeSymbol_eq (index : Option Nat) (sym : Byte) (s : State) :
    encodeSymbol index sym s =
      if s.pv = true then
        if sym.toNat < s.prN.toNat then
          .done (s.writePair (symbolCode s.prM.toNat s.prPT.toNat sym.toNat)
            (symbolLength s.prM.toNat s.prPT.toNat sym.toNat))
        else .raised (.fSym sym index)
      else .raised .fNoparam := by
  unfold encodeSymbol requireParams requireSymbol
  by_cases hp : s.pv = true
  · rw [if_pos hp, if_pos hp]
    by_cases h : sym.toNat < s.prN.toNat
    · rw [if_pos h, if_neg (by omega)]
    · rw [if_neg h, if_pos (by omega)]
  · rw [if_neg hp, if_neg hp]

/-! ### The packer -/

theorem append_eq (code : CodeWord) (len : Nat) (s : State) :
    append code len s =
      if len = 0 ∨ admits s.caps.bs (s.bs.length + len) = true then .done (s.writeBs (s.bs ++ codeBits code len))
      else .raised (.fCap .bs) := by
  rw [append, bsAppendAll_eq, codeBits_length]
  congr 1
  rw [← List.length_eq_zero_iff, codeBits_length]

theorem packPair_eq (s : State) :
    packPair s = if s.rv = true then append s.code s.len.toNat s else .raised .fNovalue := rfl

theorem packImmediate_eq (code : CodeWord) (len : LengthField) (s : State) :
    packImmediate code len s = if 16 < len.toNat then .raised (.fLen len) else append code len.toNat s := rfl

theorem serialize_eq (s : State) :
    serialize s =
      if admits s.caps.obuf (ceilDiv8 s.bs.length + 1) = true then .done (s.writeObuf (serialized s.bs))
      else .raised (.fCap .obuf) := by
  rw [serialize, obufAppendAll_eq]
  simp only [State.writeObuf_caps, State.writeObuf_obuf, List.length_nil, Nat.zero_add, List.nil_append,
    serialized_length]
  have : ¬ serialized s.bs = [] := by simp [serialized]
  simp only [this, false_or]
  rfl

theorem deserialize_nil {s : State} (h : s.ibuf = []) : deserialize s = .raised .fNohdr := by
  simp [deserialize, h]

/-- `DESERIALIZE` of a buffer with a header byte (42_bitstream_packer R105). -/
theorem deserialize_cons {s : State} {header : Byte} {payload : List Byte} (h : s.ibuf = header :: payload) :
    deserialize s =
      if 7 < header.toNat ∨ (payload = [] ∧ 0 < header.toNat) then .raised (.fHdr header)
      else if deserialized header.toNat payload = [] ∨ admits s.caps.bs (8 * payload.length - header.toNat) = true then
        .done ((s.writeBs (deserialized header.toNat payload)).writeCur 0)
      else .raised (.fCap .bs) := by
  simp only [deserialize, h]
  by_cases h1 : 7 < header.toNat
  · simp [h1]
  · rw [if_neg h1]
    by_cases h2 : payload = [] ∧ 0 < header.toNat
    · simp [h2]
    · rw [if_neg (by simpa [List.length_eq_zero_iff] using h2), if_neg (by simp [h1]; simpa using h2), bsAppendAll_eq]
      simp only [State.writeBs_bs, List.length_nil, Nat.zero_add, List.nil_append, State.writeBs_caps,
        deserialized_length]
      split
      · rfl
      · rfl

/-- A `DESERIALIZE` that ends has replaced `BS` and cleared `CUR`, and nothing else (42_bitstream_packer R105). -/
theorem deserialize_done {s t : State} (h : deserialize s = .done t) :
    ∃ header payload, s.ibuf = header :: payload ∧ header.toNat ≤ 7 ∧ ¬ (payload = [] ∧ 0 < header.toNat) ∧
      (deserialized header.toNat payload = [] ∨ admits s.caps.bs (8 * payload.length - header.toNat) = true) ∧
      t = (s.writeBs (deserialized header.toNat payload)).writeCur 0 := by
  cases hb : s.ibuf with
  | nil => rw [deserialize_nil hb] at h; cases h
  | cons header payload =>
    rw [deserialize_cons hb] at h
    split at h
    · cases h
    · rename_i h1
      split at h
      · rename_i h2
        cases h
        exact ⟨header, payload, rfl, by omega, fun hc => h1 (.inr hc), h2, rfl⟩
      · cases h

/-! ### `DECSYM` -/

theorem readBits_lt (bits : List Bool) (pos w : Nat) : readBits bits pos w < 2 ^ w := by
  have h := bitsValue_lt ((bits.drop pos).take w)
  exact Nat.lt_of_lt_of_le h (Nat.pow_le_pow_right (by decide) (by simp))

/-- A `DECSYM` that ends has written `SYMO`, `SV` and `CUR`, with a whole codeword read (43_symbol_decoder R120). -/
theorem decodeSymbol_done {s t : State} (h : decodeSymbol s = .done t) :
    s.pv = true ∧ s.cur ≠ s.bs.length ∧ s.prM.toNat ≤ s.bs.length - s.cur ∧
    ((readBits s.bs s.cur s.prM.toNat < s.prPT.toNat ∧
        t = s.writeSymbol (readBits s.bs s.cur s.prM.toNat) s.prM.toNat) ∨
     (s.prPT.toNat ≤ readBits s.bs s.cur s.prM.toNat ∧ ∃ b, s.bs[s.cur + s.prM.toNat]? = some b ∧
        t = s.writeSymbol (s.prPT.toNat + (readBits s.bs s.cur s.prM.toNat - s.prPT.toNat) * 2 + b.toNat)
          (s.prM.toNat + 1))) := by
  unfold decodeSymbol requireParams at h
  simp only [State.blen, bsBit] at h
  split at h
  · rename_i hp
    split at h
    · cases h
    · rename_i hc
      split at h
      · cases h
      · rename_i hr
        refine ⟨hp, hc, by omega, ?_⟩
        split at h
        · rename_i hv; cases h; exact .inl ⟨hv, rfl⟩
        · rename_i hv
          split at h
          · cases h
          · rename_i b hb; cases h; exact .inr ⟨by omega, b, hb, rfl⟩
  · cases h

/-- `DECSYM` in the short class (43_symbol_decoder R120). -/
theorem decodeSymbol_short {s : State} (hp : s.pv = true) (hc : s.cur ≠ s.bs.length)
    (hm : s.prM.toNat ≤ s.bs.length - s.cur) (hv : readBits s.bs s.cur s.prM.toNat < s.prPT.toNat) :
    decodeSymbol s = .done (s.writeSymbol (readBits s.bs s.cur s.prM.toNat) s.prM.toNat) := by
  unfold decodeSymbol requireParams
  simp only [State.blen]
  rw [if_pos hp, if_neg hc, if_neg (Nat.not_lt.mpr hm), if_pos hv]

/-- `DECSYM` in the long class (43_symbol_decoder R120). -/
theorem decodeSymbol_long {s : State} {b : Bool} (hp : s.pv = true) (hc : s.cur ≠ s.bs.length)
    (hm : s.prM.toNat ≤ s.bs.length - s.cur) (hv : s.prPT.toNat ≤ readBits s.bs s.cur s.prM.toNat)
    (hb : s.bs[s.cur + s.prM.toNat]? = some b) :
    decodeSymbol s =
      .done (s.writeSymbol (s.prPT.toNat + (readBits s.bs s.cur s.prM.toNat - s.prPT.toNat) * 2 + b.toNat)
        (s.prM.toNat + 1)) := by
  unfold decodeSymbol requireParams
  simp only [State.blen, bsBit]
  rw [if_pos hp, if_neg hc, if_neg (Nat.not_lt.mpr hm), if_neg (Nat.not_lt.mpr hv), hb]

theorem decodeSymbol_not_endless (s : State) : decodeSymbol s ≠ .endless := by
  intro h
  unfold decodeSymbol requireParams at h
  simp only [State.blen, bsBit] at h
  split at h
  · split at h
    · cases h
    · split at h
      · cases h
      · split at h
        · cases h
        · split at h <;> cases h
  · cases h

/-- The advance of a `DECSYM` that ends: the cursor stays within the sequence. -/
theorem decodeSymbol_cur {s t : State} (h : decodeSymbol s = .done t) (hc : s.cur ≤ s.bs.length) :
    s.cur + s.prM.toNat ≤ t.cur ∧ t.cur ≤ s.bs.length := by
  obtain ⟨-, -, hr, ⟨-, rfl⟩ | ⟨-, b, hb, rfl⟩⟩ := decodeSymbol_done h
  · simp; omega
  · have := (List.getElem?_eq_some_iff.mp hb).1
    simp; omega

/-- `DECSYM` on bits that begin with the codeword of a symbol (45_laws R153). -/
theorem decodeSymbol_codeword {s : State} {sym : Byte} {rest : List Bool} (hpv : s.pv = true) (hp : s.ParamsOk)
    (hn : sym.toNat < s.prN.toNat) (hc : s.cur < s.bs.length) (hb : s.bs.drop s.cur = s.codeword sym ++ rest) :
    decodeSymbol s = .done (s.writeSymbol sym.toNat (symbolLength s.prM.toNat s.prPT.toNat sym.toNat)) := by
  have hpar := hp.params
  have hval := codeword_value hp hn
  have hlen := codeword_length s sym
  have hdrop : s.bs.length - s.cur = (s.codeword sym).length + rest.length := by
    rw [← List.length_drop, hb, List.length_append]
  unfold decodeSymbol requireParams
  simp only [State.blen]
  rw [if_pos hpv, if_neg (by omega)]
  by_cases hs : sym.toNat < s.prPT.toNat
  · have hl : symbolLength s.prM.toNat s.prPT.toNat sym.toNat = s.prM.toNat := symbolLength_short hs
    have hv : readBits s.bs s.cur s.prM.toNat = sym.toNat := by
      rw [readBits, hb, List.take_append_of_le_length (by omega), List.take_of_length_le (by omega), hval,
        hpar.code_short hs]
    rw [if_neg (by omega), hv, if_pos hs, hl]
  · have hs' : s.prPT.toNat ≤ sym.toNat := by omega
    have hl : symbolLength s.prM.toNat s.prPT.toNat sym.toNat = s.prM.toNat + 1 := symbolLength_long hs'
    have hcode := hpar.code_long hs' hn
    have hd := hpar.decode_long hs' hn
    -- split the codeword into its prefix and its suffix bit
    have hsplit : s.codeword sym = (s.codeword sym).take s.prM.toNat ++ (s.codeword sym).drop s.prM.toNat :=
      (List.take_append_drop _ _).symm
    obtain ⟨b, hbit⟩ : ∃ b, (s.codeword sym).drop s.prM.toNat = [b] :=
      List.length_eq_one_iff.mp (by rw [List.length_drop, hlen, hl]; omega)
    have htake : ((s.codeword sym).take s.prM.toNat).length = s.prM.toNat := by
      rw [List.length_take, hlen, hl]; omega
    have hvv : bitsValue ((s.codeword sym).take s.prM.toNat) * 2 + b.toNat = sym.toNat + s.prPT.toNat := by
      rw [hsplit, hbit, bitsValue_append] at hval
      rw [hcode] at hval
      simpa [bitsValue] using hval
    have hb1 : b.toNat ≤ 1 := by cases b <;> simp
    have hv : readBits s.bs s.cur s.prM.toNat = (sym.toNat + s.prPT.toNat) / 2 := by
      rw [readBits, hb, List.take_append_of_le_length (by omega)]
      omega
    have hbit2 : bsBit s.bs (s.cur + s.prM.toNat) = some b := by
      have : s.bs[s.cur + s.prM.toNat]? = (s.bs.drop s.cur)[s.prM.toNat]? := by rw [List.getElem?_drop]
      rw [bsBit, this, hb, List.getElem?_append_left (by omega), hsplit, hbit,
        List.getElem?_append_right (by omega), htake]
      simp
    rw [if_neg (by omega), hv, if_neg (by omega), hbit2, hl]
    simp only
    have : b.toNat = (sym.toNat + s.prPT.toNat) % 2 := by omega
    rw [this, hd.2.2]

/-! ### The composites -/

/-- What the loop of `ENCODE` has done after the symbols `syms`: their codewords appended, the pair of the last one in
`CODE` and `LEN` (44_composite_operations R130). -/
def afterEncode (syms : List Byte) (s : State) : State :=
  match syms.getLast? with
  | none => s
  | some sym =>
    (s.writeBs (s.bs ++ syms.flatMap s.codeword)).writePair (symbolCode s.prM.toNat s.prPT.toNat sym.toNat)
      (symbolLength s.prM.toNat s.prPT.toNat sym.toNat)

theorem encodeLoop_eq (syms : List Byte) (i : Nat) (s : State) (hpv : s.pv = true) (hp : s.ParamsOk)
    (hn : ∀ sym ∈ syms, sym.toNat < s.prN.toNat)
    (hfit : admits s.caps.bs (s.bs.length + (syms.flatMap s.codeword).length) = true) :
    encodeLoop syms i s = .done (afterEncode syms s) := by
  induction syms generalizing i s with
  | nil => rfl
  | cons sym rest ih =>
    have hsym : sym.toNat < s.prN.toNat := hn sym (by simp)
    have hlen : symbolLength s.prM.toNat s.prPT.toNat sym.toNat % 2 ^ 8
        = symbolLength s.prM.toNat s.prPT.toNat sym.toNat :=
      Nat.mod_eq_of_lt (by have := hp.params.length_le hsym; omega)
    have hfit1 : admits s.caps.bs (s.bs.length + symbolLength s.prM.toNat s.prPT.toNat sym.toNat) = true :=
      admits_mono (by simp) hfit
    rw [encodeLoop, encodeSymbol_eq, if_pos hpv, if_pos hsym, Result.done_andThen, packPair_eq]
    simp only [State.writePair_rv, if_true, State.writePair_len, State.writePair_code, BitVec.toNat_ofNat, hlen]
    rw [append_eq, if_pos (Or.inr (by simpa using hfit1)), Result.done_andThen]
    have ht := ih (i + 1)
      (((s.writePair (symbolCode s.prM.toNat s.prPT.toNat sym.toNat)
        (symbolLength s.prM.toNat s.prPT.toNat sym.toNat)).writeBs (s.bs ++ s.codeword sym)))
      hpv hp (fun x hx => hn x (List.mem_cons_of_mem _ hx))
      (by
        have e : ∀ x, (((s.writePair (symbolCode s.prM.toNat s.prPT.toNat sym.toNat)
          (symbolLength s.prM.toNat s.prPT.toNat sym.toNat)).writeBs (s.bs ++ s.codeword sym))).codeword x
            = s.codeword x := fun x => rfl
        simp only [List.flatMap_cons, List.length_append] at hfit
        have e2 := List.flatMap_congr (l := rest) (fun x _ => e x)
        simp only [State.writeBs_bs, State.writeBs_caps, State.writePair_caps]
        rw [e2]
        simpa [Nat.add_assoc] using hfit)
    refine Eq.trans ht ?_
    unfold afterEncode
    cases hr : rest with
    | nil => simp [State.codeword]; rfl
    | cons x xs =>
      have e : ∀ x, (((s.writePair (symbolCode s.prM.toNat s.prPT.toNat sym.toNat)
        (symbolLength s.prM.toNat s.prPT.toNat sym.toNat)).writeBs (s.bs ++ s.codeword sym))).codeword x
          = s.codeword x := fun x => rfl
      simp only [List.getLast?_cons_cons]
      simp only [List.getLast?_cons, List.flatMap_cons]
      have e2 := List.flatMap_congr (l := x :: xs) (fun x _ => e x)
      rw [List.flatMap_cons, List.flatMap_cons] at e2
      simp only [State.writeBs_bs]
      rw [e2, List.append_assoc]
      rfl

/-- `ENCODE`'s loop does not touch these. -/
theorem encodeLoop_frame {syms : List Byte} {i : Nat} {s t : State} (h : encodeLoop syms i s = .done t) :
    t = { s with bs := t.bs, code := t.code, len := t.len, rv := t.rv } ∧ s.bs.length ≤ t.bs.length := by
  induction syms generalizing i s with
  | nil => cases h; exact ⟨rfl, Nat.le_refl _⟩
  | cons sym rest ih =>
    rw [encodeLoop, Result.andThen_eq_done] at h
    obtain ⟨u, hu, h⟩ := h
    rw [Result.andThen_eq_done] at h
    obtain ⟨v, hv, h⟩ := h
    obtain ⟨h1, h2⟩ := ih h
    rw [encodeSymbol_eq] at hu
    rw [packPair_eq, append_eq] at hv
    split at hu
    · split at hu
      · cases hu
        split at hv
        · split at hv
          · cases hv
            refine ⟨?_, ?_⟩
            · rw [h1]; rfl
            · simp at h2; omega
          · cases hv
        · cases hv
      · cases hu
    · cases hu

theorem append_not_endless (code : CodeWord) (len : Nat) (s : State) : append code len s ≠ .endless := by
  rw [append_eq]; split <;> simp

theorem encodeSymbol_not_endless (index : Option Nat) (sym : Byte) (s : State) :
    encodeSymbol index sym s ≠ .endless := by
  rw [encodeSymbol_eq]; split
  · split <;> simp
  · simp

theorem packPair_not_endless (s : State) : packPair s ≠ .endless := by
  rw [packPair_eq]; split
  · exact append_not_endless _ _ _
  · simp

theorem serialize_not_endless (s : State) : serialize s ≠ .endless := by
  rw [serialize_eq]; split <;> simp

theorem deserialize_not_endless (s : State) : deserialize s ≠ .endless := by
  cases h : s.ibuf with
  | nil => rw [deserialize_nil h]; simp
  | cons header payload => rw [deserialize_cons h]; split; · simp
                           split <;> simp

theorem encodeLoop_not_endless (syms : List Byte) (i : Nat) (s : State) : encodeLoop syms i s ≠ .endless := by
  induction syms generalizing i s with
  | nil => simp [encodeLoop]
  | cons sym rest ih =>
    intro h
    rw [encodeLoop, Result.andThen_eq_endless] at h
    obtain h | ⟨u, -, h⟩ := h
    · exact encodeSymbol_not_endless _ _ _ h
    · rw [Result.andThen_eq_endless] at h
      obtain h | ⟨v, -, h⟩ := h
      · exact packPair_not_endless _ h
      · exact ih _ _ h

/-- `DECODE`'s loop touches `CUR`, `SYMO`, `SV` and `OBUF` only, and ends at the end of the sequence
(44_composite_operations R131). -/
theorem decodeLoop_done {fuel : Nat} {s t : State} (h : decodeLoop fuel s = .done t) (hc : s.cur ≤ s.bs.length) :
    t = { s with cur := t.cur, symo := t.symo, sv := t.sv, obuf := t.obuf } ∧ t.cur = s.bs.length := by
  induction fuel generalizing s with
  | zero =>
    simp only [decodeLoop, State.blen] at h
    split at h
    · cases h
    · cases h; exact ⟨rfl, by omega⟩
  | succ fuel ih =>
    simp only [decodeLoop, State.blen] at h
    split at h
    · rw [Result.andThen_eq_done] at h
      obtain ⟨u, hu, h⟩ := h
      rw [Result.andThen_eq_done] at h
      obtain ⟨v, hv, h⟩ := h
      have hcur := decodeSymbol_cur hu hc
      have hbs : u.bs = s.bs := by
        obtain ⟨-, -, -, ⟨-, rfl⟩ | ⟨-, b, -, rfl⟩⟩ := decodeSymbol_done hu <;> rfl
      have hu2 : u = { s with cur := u.cur, symo := u.symo, sv := u.sv } := by
        obtain ⟨-, -, -, ⟨-, rfl⟩ | ⟨-, b, -, rfl⟩⟩ := decodeSymbol_done hu <;> rfl
      rw [obufAppend_eq] at hv
      split at hv
      · cases hv
        obtain ⟨h1, h2⟩ := ih h (by simp [hbs]; omega)
        refine ⟨?_, by simpa [hbs] using h2⟩
        rw [h1]
        simp only [State.writeObuf]
        rw [hu2]
      · cases hv
    · cases h; exact ⟨rfl, by omega⟩

/-- A loop whose iterations each read at least one bit ends (70_reset R191). -/
theorem decodeLoop_not_endless {fuel : Nat} {s : State} (hm : 1 ≤ s.prM.toNat) (hc : s.cur ≤ s.bs.length)
    (hf : s.bs.length - s.cur ≤ fuel) : decodeLoop fuel s ≠ .endless := by
  induction fuel generalizing s with
  | zero =>
    simp only [decodeLoop, State.blen]
    rw [if_neg (by omega)]; simp
  | succ fuel ih =>
    intro h
    simp only [decodeLoop, State.blen] at h
    split at h
    · rw [Result.andThen_eq_endless] at h
      obtain h | ⟨u, hu, h⟩ := h
      · exact decodeSymbol_not_endless _ h
      · rw [Result.andThen_eq_endless] at h
        have hcur := decodeSymbol_cur hu hc
        have hu2 : u = { s with cur := u.cur, symo := u.symo, sv := u.sv } := by
          obtain ⟨-, -, -, ⟨-, rfl⟩ | ⟨-, b, -, rfl⟩⟩ := decodeSymbol_done hu <;> rfl
        have hbs : u.bs = s.bs := by rw [hu2]
        have hpm : u.prM = s.prM := by rw [hu2]
        obtain h | ⟨v, hv, h⟩ := h
        · rw [obufAppend_eq] at h; split at h <;> cases h
        · rw [obufAppend_eq] at hv
          split at hv
          · cases hv
            exact ih (by simpa [hpm] using hm) (by simp [hbs]; omega) (by simp [hbs]; omega) h
          · cases hv
    · cases h

/-- What the loop of `DECODE` has done after the symbols `syms` (44_composite_operations R131). -/
def afterDecode (syms : List Byte) (s : State) : State :=
  { s with
    cur := s.cur + (syms.flatMap s.codeword).length
    symo := syms.getLast?.getD s.symo
    sv := s.sv || decide (syms ≠ [])
    obuf := s.obuf ++ syms }

/-- The loop of `DECODE` recovers the symbols whose codewords the rest of the sequence is made of (45_laws R154). -/
theorem decodeLoop_codewords (syms : List Byte) (fuel : Nat) (s : State) (hpv : s.pv = true) (hp : s.ParamsOk)
    (hm : 1 ≤ s.prM.toNat) (hn : ∀ sym ∈ syms, sym.toNat < s.prN.toNat) (hcur : s.cur ≤ s.bs.length)
    (hb : s.bs.drop s.cur = syms.flatMap s.codeword)
    (hfuel : syms.length ≤ fuel) (hfit : admits s.caps.obuf (s.obuf.length + syms.length) = true) :
    decodeLoop fuel s = .done (afterDecode syms s) := by
  induction syms generalizing fuel s with
  | nil =>
    have hle : s.bs.length ≤ s.cur := by
      simpa using hb
    have hd : ∀ f, decodeLoop f s = .done s := by
      intro f
      cases f <;> simp only [decodeLoop, State.blen] <;> rw [if_neg (by omega)]
    rw [hd]
    simp [afterDecode]
  | cons sym rest ih =>
    have hsym : sym.toNat < s.prN.toNat := hn sym (by simp)
    rw [List.flatMap_cons] at hb
    have hlen := codeword_length s sym
    have hpos : 1 ≤ symbolLength s.prM.toNat s.prPT.toNat sym.toNat := by
      unfold symbolLength; split <;> omega
    have hdl : s.bs.length - s.cur = (s.codeword sym).length + (rest.flatMap s.codeword).length := by
      rw [← List.length_drop, hb, List.length_append]
    cases fuel with
    | zero => simp at hfuel
    | succ fuel =>
      simp only [decodeLoop, State.blen]
      rw [if_pos (by omega), decodeSymbol_codeword hpv hp hsym (by omega) hb, Result.done_andThen]
      rw [obufAppend_fits (by exact admits_mono (b := s.obuf.length + (sym :: rest).length) (by simp) hfit),
        Result.done_andThen]
      have e : ∀ x, ((s.writeSymbol sym.toNat (symbolLength s.prM.toNat s.prPT.toNat sym.toNat)).writeObuf
          (s.obuf ++ [sym])).codeword x = s.codeword x := fun x => rfl
      have ht := ih fuel ((s.writeSymbol sym.toNat (symbolLength s.prM.toNat s.prPT.toNat sym.toNat)).writeObuf
          (s.obuf ++ [sym])) hpv hp hm (fun x hx => hn x (List.mem_cons_of_mem _ hx))
          (by simp; omega)
          (by
            simp only [State.writeObuf_bs, State.writeObuf_cur, State.writeSymbol_bs, State.writeSymbol_cur]
            rw [← List.drop_drop, hb, ← hlen, List.drop_left]
            rfl)
          (by simpa using hfuel)
          (by simpa [Nat.add_assoc, Nat.add_comm 1] using hfit)
      have hsymo : BitVec.ofNat 8 sym.toNat = sym := by simp
      simp only [State.writeSymbol_symo, State.writeSymbol_obuf, hsymo]
      refine Eq.trans ht ?_
      simp only [afterDecode, State.writeObuf, State.writeSymbol, Result.done.injEq, State.mk.injEq,
        ArchState.mk.injEq, hsymo, true_and, and_true]
      refine ⟨?_, ?_, ?_, ?_⟩
      · cases rest <;> simp [List.getLast?_cons]
      · rw [List.flatMap_cons, List.length_append, hlen]
        show _ + _ + (rest.flatMap s.codeword).length = _
        omega
      · simp
      · simp

end Sys2Proof.Machine
end

