-- ==== Sys2Proof/Laws/Step.lean ====
section
/-!
SUPPORT. The step: which host action it takes, and that running a list of them is running the core.
-/

namespace Sys2Proof.Machine

theorem step_nil {s : State} (h : s.host = []) : step s = .next s := by
  simp [step, hostStep, h]

theorem step_cons {s : State} {a : HostAction} {rest : List HostAction} (h : s.host = a :: rest) :
    step s = perform a (s.takeAction rest) := by
  simp [step, hostStep, h]

/-- A word that decodes is executed (10_state R24). -/
theorem issueCommand_ok {w : CommandWord} {i : Instr} (h : Sys2Proof.decode w = .ok i) (s : State) :
    issueCommand w s = exec i s := by
  simp [issueCommand, h]

/-- A word that spells no command is `F_ILLCMD` (30_encoding R73). -/
theorem issueCommand_error {w : CommandWord} {r : DecodeReject} (h : Sys2Proof.decode w = .error r) (s : State) :
    issueCommand w s = runCommand (fun _ => .raised (.fIllcmd w)) s := by
  simp [issueCommand, h]

/-- The pseudocode of each command. -/
def commandBody : Instr → State → Result
  | .derive n => deriveParams n
  | .encsym sym => encodeSymbol none sym
  | .bsclr => clearBits
  | .pack => packPair
  | .packi code len => packImmediate code len
  | .serialize => serialize
  | .deserialize => deserialize
  | .decsym => decodeSymbol
  | .encode => encodeBuffer
  | .decode => decodeBuffer

/-- Every instruction is the pseudocode of one command, run and ended the one way (`runCommand`). -/
theorem exec_eq (i : Instr) (s : State) : exec i s = runCommand (commandBody i) s := by
  cases i <;> rfl

/-- Nothing but reset acts on a faulted state (60_exceptions R167). -/
theorem perform_faulted {s : State} {c : Cause} {a : HostAction} (h : s.fault = some c) (ha : a ≠ .reset) :
    perform a s = .next (takeFault c s) := by
  cases a with
  | command w =>
    simp only [perform]
    cases hd : Sys2Proof.decode w with
    | ok i =>
      rw [issueCommand_ok hd, exec_eq, runCommand_faulted h]
    | error r => rw [issueCommand_error hd, runCommand_faulted h]
  | reset => exact absurd rfl ha
  | load bytes => exact runCommand_faulted h (loadBytes bytes)
  | xfer => exact runCommand_faulted h fun t => loadBytes t.obuf t
  | readRegister number => exact runCommand_faulted h fun t => .done (t.reply (registerAnswer t number))
  | readIbuf => exact runCommand_faulted h fun t => .done (t.reply (.bytes t.ibuf))
  | readObuf => exact runCommand_faulted h fun t => .done (t.reply (.bytes t.obuf))
  | readBs => exact runCommand_faulted h fun t => .done (t.reply (.bits t.bs))

theorem runSteps_eq_run (k : Nat) (s : State) : runSteps k s = Host.Core.run Sys2Proof.core k s := by
  induction k generalizing s with
  | zero => rfl
  | succ k ih =>
    cases h : step s with
    | next t =>
      have h' : Sys2Proof.core.step s = .next t := h
      simp only [runSteps, Host.Core.run, h, h']
      exact ih t
    | fault r =>
      have h' : Sys2Proof.core.step s = .fault r := h
      simp only [runSteps, Host.Core.run, h, h']
      rfl
    | refused r =>
      have h' : Sys2Proof.core.step s = .refused r := h
      simp only [runSteps, Host.Core.run, h, h']
      rfl

theorem runSteps_succ {k : Nat} {s t : State} (h : step s = .next t) : runSteps (k + 1) s = runSteps k t := by
  simp [runSteps, h]

end Sys2Proof.Machine
end

