-- ==== Sys2Proof/Laws/Environment.lean ====
section
/-!
SUPPORT. Of what stands outside the core (10_state R32) only the capacities reach a command: the pseudocode of every
command commutes with a change of the host's list, of the last answer and of the count of free values.
-/

namespace Sys2Proof.Machine

/-- The same core and capacities beside another host and another count of free values. -/
def State.beside (s : State) (e : Environment) : State :=
  { s with host := e.host, answer := e.answer, draws := e.draws }

/-- A result with its state beside another host. -/
def Result.beside (r : Result) (e : Environment) : Result :=
  match r with
  | .done s => .done (s.beside e)
  | .raised c => .raised c
  | .endless => .endless

@[simp] theorem State.beside_toArchState (s : State) (e : Environment) : (s.beside e).toArchState = s.toArchState := rfl
@[simp] theorem State.beside_caps (s : State) (e : Environment) : (s.beside e).caps = s.caps := rfl
@[simp] theorem State.beside_host (s : State) (e : Environment) : (s.beside e).host = e.host := rfl
@[simp] theorem State.beside_answer (s : State) (e : Environment) : (s.beside e).answer = e.answer := rfl
@[simp] theorem State.beside_draws (s : State) (e : Environment) : (s.beside e).draws = e.draws := rfl

/-- Two states with the same core and capacities differ by what is beside them only. -/
theorem State.eq_beside {s s' : State} (h : s'.toArchState = s.toArchState) (hc : s'.caps = s.caps) :
    s' = s.beside s'.toEnvironment := by
  obtain ⟨a, caps, host, answer, draws⟩ := s
  obtain ⟨a', caps', host', answer', draws'⟩ := s'
  cases h
  cases hc
  rfl

theorem Result.ite_beside (p : Prop) [Decidable p] (a b : Result) (e : Environment) :
    (if p then a else b).beside e = if p then a.beside e else b.beside e :=
  apply_ite (fun r : Result => r.beside e) p a b

theorem Result.beside_andThen {f : State → Result} {e : Environment} (h : ∀ s, f (s.beside e) = (f s).beside e)
    (r : Result) : (r.beside e).andThen f = (r.andThen f).beside e := by
  cases r with
  | done s => exact h s
  | raised c => rfl
  | endless => rfl

variable (e : Environment)

theorem deriveParams_beside (n : AlphabetSize) (s : State) :
    deriveParams n (s.beside e) = (deriveParams n s).beside e := by
  rw [deriveParams_eq, deriveParams_eq, Result.ite_beside]
  rfl

theorem encodeSymbol_beside (index : Option Nat) (sym : Byte) (s : State) :
    encodeSymbol index sym (s.beside e) = (encodeSymbol index sym s).beside e := by
  rw [encodeSymbol_eq, encodeSymbol_eq, Result.ite_beside, Result.ite_beside]
  rfl

theorem append_beside (code : CodeWord) (len : Nat) (s : State) :
    append code len (s.beside e) = (append code len s).beside e := by
  rw [append_eq, append_eq, Result.ite_beside]
  rfl

theorem packPair_beside (s : State) : packPair (s.beside e) = (packPair s).beside e := by
  rw [packPair_eq, packPair_eq, Result.ite_beside, append_beside]
  rfl

theorem packImmediate_beside (code : CodeWord) (len : LengthField) (s : State) :
    packImmediate code len (s.beside e) = (packImmediate code len s).beside e := by
  rw [packImmediate_eq, packImmediate_eq, Result.ite_beside, append_beside]
  rfl

theorem serialize_beside (s : State) : serialize (s.beside e) = (serialize s).beside e := by
  rw [serialize_eq, serialize_eq, Result.ite_beside]
  rfl

theorem deserialize_beside (s : State) : deserialize (s.beside e) = (deserialize s).beside e := by
  cases h : s.ibuf with
  | nil => rw [deserialize_nil h, deserialize_nil (by exact h)]; rfl
  | cons header payload =>
    rw [deserialize_cons h, deserialize_cons (by exact h), Result.ite_beside, Result.ite_beside]
    rfl

theorem decodeSymbol_beside (s : State) : decodeSymbol (s.beside e) = (decodeSymbol s).beside e := by
  simp only [decodeSymbol, requireParams, Result.ite_beside, State.blen, State.beside_toArchState]
  cases bsBit s.bs (s.cur + s.prM.toNat) <;> rfl

theorem obufAppend_beside (v : Byte) (s : State) : obufAppend v (s.beside e) = (obufAppend v s).beside e := by
  rw [obufAppend_eq, obufAppend_eq, Result.ite_beside]
  rfl

theorem encodeLoop_beside (syms : List Byte) (i : Nat) (s : State) :
    encodeLoop syms i (s.beside e) = (encodeLoop syms i s).beside e := by
  induction syms generalizing i s with
  | nil => rfl
  | cons sym rest ih =>
    simp only [encodeLoop, encodeSymbol_beside]
    refine Result.beside_andThen (fun t => ?_) _
    rw [packPair_beside]
    exact Result.beside_andThen (ih (i + 1)) _

theorem decodeLoop_beside (fuel : Nat) (s : State) : decodeLoop fuel (s.beside e) = (decodeLoop fuel s).beside e := by
  induction fuel generalizing s with
  | zero => rw [decodeLoop, decodeLoop, Result.ite_beside]; rfl
  | succ fuel ih =>
    rw [decodeLoop, decodeLoop, Result.ite_beside, decodeSymbol_beside]
    refine congrArg (fun r => ite _ r _) (Result.beside_andThen (fun t => ?_) _)
    rw [State.beside_toArchState, obufAppend_beside]
    exact Result.beside_andThen ih _

/-- The pseudocode of a command reads and writes nothing beside the core but, to read, the capacities. -/
theorem commandBody_beside (i : Instr) (s : State) : commandBody i (s.beside e) = (commandBody i s).beside e := by
  cases i with
  | derive n => exact deriveParams_beside e n s
  | encsym sym => exact encodeSymbol_beside e none sym s
  | bsclr => rfl
  | pack => exact packPair_beside e s
  | packi code len => exact packImmediate_beside e code len s
  | serialize => exact serialize_beside e s
  | deserialize => exact deserialize_beside e s
  | decsym => exact decodeSymbol_beside e s
  | encode =>
    rw [commandBody, encodeBuffer, requireParams, requireParams, Result.ite_beside]
    refine congrArg (fun r => ite _ r _) ?_
    refine Eq.trans ?_ (Result.beside_andThen (serialize_beside e) _)
    exact congrArg (fun r : Result => r.andThen serialize) (encodeLoop_beside e s.ibuf 0 ((s.writeBs []).writeCur 0))
  | decode =>
    rw [commandBody, decodeBuffer, requireParams, requireParams, Result.ite_beside, deserialize_beside]
    exact congrArg (fun r => ite _ r _)
      (Result.beside_andThen (fun t => decodeLoop_beside e (decodeFuel t) (t.writeObuf [])) _)

end Sys2Proof.Machine
end

