-- ==== Sys2Proof/Laws/Memory.lean ====
section
/-!
SUPPORT. The byte memories as address and byte pairs are always in canonical form: a memory is a list whose index is
the address, so every operation keeps the form, and equal cells are equal memories.
-/

namespace Sys2Proof.Machine

theorem memoryCells_map_fst (space : List Byte) : (memoryCells space).map Prod.fst = List.range space.length := by
  simp only [memoryCells, List.map_map]
  apply List.ext_getElem?
  intro i
  by_cases hi : i < space.length
  · simp [hi]
  · simp [hi]

/-- Every memory of every state is canonical, whatever operation made it. -/
theorem memoryCells_wf (space : List Byte) : Memory.wf (memoryCells space) := by
  have h : ((memoryCells space).map Prod.fst).Pairwise (· < ·) := by
    rw [memoryCells_map_fst]; exact List.pairwise_lt_range
  exact List.pairwise_map.mp h

/-- Reading index `a` gives the byte listed at address `a`. -/
theorem memRead_eq_cell (space : List Byte) (a : Nat) : memRead space a = (memoryCells space)[a]?.map Prod.snd := by
  simp [memRead, memoryCells, List.getElem?_zipIdx, Option.map_map, Function.comp_def]

theorem memoryCells_inj {m m' : List Byte} (h : memoryCells m = memoryCells m') : m = m' := by
  apply List.ext_getElem?
  intro a
  have := congrArg (fun l : List Host.Cell => l[a]?.map Prod.snd) h
  simp only [← memRead_eq_cell] at this
  exact this

/-- The memories after reset are canonical. -/
theorem reset_memory_wf :
    Memory.wf (memoryCells State.reset.ibuf) ∧ Memory.wf (memoryCells State.reset.obuf) :=
  ⟨memoryCells_wf _, memoryCells_wf _⟩

/-- A read after an append: the byte appended at the old length, every earlier byte unchanged. -/
theorem memRead_append (space : List Byte) (v : Byte) (a : Nat) :
    memRead (space ++ [v]) a = if a = space.length then some v else memRead space a := by
  unfold memRead
  split
  · subst_vars; simp
  · rename_i h
    by_cases ha : a < space.length
    · rw [List.getElem?_append_left ha]
    · rw [List.getElem?_eq_none (by simp; omega), List.getElem?_eq_none (by omega)]

end Sys2Proof.Machine
end

