-- ==== Sys2Proof/Laws/PerInstr.lean ====
section
/-!
SUPPORT. A fact about every instruction's encoding: its word fits 32 bits, its `OP` field is the opcode of the
instruction, and `Z1` is zero (30_encoding R70 to R72).
-/

namespace Sys2Proof.Laws.EncodingFields

/-- The `OP` column of 30_encoding R72. -/
def opcode : Instr → Nat
  | .derive _ => 1
  | .encsym _ => 2
  | .bsclr => 3
  | .pack => 4
  | .packi _ _ => 5
  | .serialize => 6
  | .deserialize => 7
  | .decsym => 8
  | .encode => 9
  | .decode => 10

def Statement (i : Instr) : Prop :=
  encodeNat i < 2 ^ 32 ∧ field (encode i) 31 28 = opcode i ∧ field (encode i) 27 21 = 0

theorem derive (n : AlphabetSize) : Statement (.derive n) := by
  have := n.isLt
  simp only [Statement, field, encode, encodeNat, opcode, BitVec.toNat_ofNat]
  omega

theorem encsym (sym : Byte) : Statement (.encsym sym) := by
  have := sym.isLt
  simp only [Statement, field, encode, encodeNat, opcode, BitVec.toNat_ofNat]
  omega

theorem bsclr : Statement .bsclr := by unfold Statement; decide
theorem pack : Statement .pack := by unfold Statement; decide

theorem packi (code : CodeWord) (len : LengthField) : Statement (.packi code len) := by
  have := code.isLt
  have := len.isLt
  simp only [Statement, field, encode, encodeNat, opcode, BitVec.toNat_ofNat]
  omega

theorem serialize : Statement .serialize := by unfold Statement; decide
theorem deserialize : Statement .deserialize := by unfold Statement; decide
theorem decsym : Statement .decsym := by unfold Statement; decide
theorem encode : Statement .encode := by unfold Statement; decide
theorem decode : Statement .decode := by unfold Statement; decide

end Sys2Proof.Laws.EncodingFields
end

