-- ==== Sys2Proof/Tests/Slice0.lean ====
section
/-!
SUPPORT. Small tests: well-formedness, command words written out bit by bit from 30_encoding R71, R72 and R75, one or
two steps per command with the values of 95_test_vectors, and a witness for every statement that has hypotheses. The
host's actions and the results of a step are compared through `nextState` and `faultAfter`, because an outcome has no
equality test.
-/

namespace Sys2Proof.Tests

open Sys2Proof Sys2Proof.Machine

/-! ### Helpers -/

/-- The `n` bits of a number, most significant first: `bitsOf 4 0b1110` is the sequence written `1110`. -/
def bitsOf (n v : Nat) : List Bool :=
  (List.range n).map fun k => v.testBit (n - 1 - k)

/-- After reset, with parameters of a row of table 2.1 of 95_test_vectors. -/
def withParams (n m pl pt : Nat) : State :=
  { State.reset with
    prN := BitVec.ofNat 9 n, prM := BitVec.ofNat 4 m, prPL := BitVec.ofNat 8 pl, prPT := BitVec.ofNat 9 pt, pv := true }

/-- `N = 9`. -/
def nine : State := withParams 9 3 1 7

/-- `N = 9` with the bits of program P1 of 95_test_vectors, `CODE` and `LEN` of symbol 7. -/
def nineP1 : State := { nine with bs := bitsOf 7 0b0011110, code := 14, len := 4, rv := true }

/-- The capacities, all `k`. -/
def small (k : Nat) : Caps := ⟨some k, some k, some k⟩

/-- A next state without fault is what `faultAfter` reports as `some none`, a raised cause as `some (some c)`. -/
theorem faultAfter_eq_some {o : Host.Outcome State Fault Refusal} {f : Option Cause} :
    faultAfter o = some f ↔ ∃ t, o = .next t ∧ t.fault = f := by
  cases o <;> simp [faultAfter, nextState]

/-! ### Well-formedness (30_encoding R73) -/

theorem test_wf_derive_zero_refused : (Instr.derive 0).wellFormed = false := by decide
theorem test_wf_derive_above_refused : (Instr.derive 257).wellFormed = false := by decide
theorem test_wf_derive_ends : (Instr.derive 1).wellFormed = true ∧ (Instr.derive 256).wellFormed = true := by decide
theorem test_wf_packi_refused : (Instr.packi 0 17).wellFormed = false := by decide
theorem test_wf_packi_end : (Instr.packi 0xFFFF 16).wellFormed = true := by decide

/-! ### Decoding: `OP` 31:28, `Z1` 27:21, `LF` 20:16, `IMM` 15:0 (30_encoding R71) -/

theorem test_decode_derive : decode 0b0001_0000000_00000_0000000100000000#32 = .ok (.derive 256) := by decide
theorem test_decode_encsym : decode 0b0010_0000000_00000_0000000011001000#32 = .ok (.encsym 200) := by decide
theorem test_decode_bsclr : decode 0b0011_0000000_00000_0000000000000000#32 = .ok .bsclr := by decide
theorem test_decode_pack : decode 0b0100_0000000_00000_0000000000000000#32 = .ok .pack := by decide
theorem test_decode_packi : decode 0b0101_0000000_10001_1000000000000001#32 = .ok (.packi 0x8001 17) := by decide
theorem test_decode_serialize : decode 0b0110_0000000_00000_0000000000000000#32 = .ok .serialize := by decide
theorem test_decode_deserialize : decode 0b0111_0000000_00000_0000000000000000#32 = .ok .deserialize := by decide
theorem test_decode_decsym : decode 0b1000_0000000_00000_0000000000000000#32 = .ok .decsym := by decide
theorem test_decode_encode : decode 0b1001_0000000_00000_0000000000000000#32 = .ok .encode := by decide
theorem test_decode_decode : decode 0b1010_0000000_00000_0000000000000000#32 = .ok .decode := by decide

/-- The illegal words of 95_test_vectors 2.9. -/
theorem test_decode_illegal :
    [0x00000000#32, 0x00000009#32, 0xB0000000#32, 0xC0000000#32, 0xD0000000#32, 0xE0000000#32, 0xF0000000#32,
      0xFFFFFFFF#32, 0x30000001#32, 0x60010000#32, 0x90200000#32, 0xA8000000#32, 0x10000200#32, 0x20000100#32,
      0x50200000#32].all (fun w => (decode w).toOption.isNone) = true := by decide

/-- The host's reading of a table word, as the next command and as a decoded instruction. -/
theorem test_fetch_word :
    decodeTableWord 32 0x20000007 = some (.encsym 7) ∧
    (nextState (step (State.reset.withFetchWord 32 0x10000009))).map (fun t => (t.prM, t.prPL, t.prPT, t.pv))
      = some (3, 1, 7, true) := by decide

/-! ### One step of each command (95_test_vectors) -/

/-- Table 2.1. -/
theorem test_derive :
    (nextState (exec (.derive 9) State.reset)).map (fun t => (t.prN, t.prM, t.prPL, t.prPT)) = some (9, 3, 1, 7) ∧
    (nextState (exec (.derive 255) State.reset)).map (fun t => (t.prN, t.prM, t.prPL, t.prPT)) = some (255, 7, 127, 1)
      ∧ (nextState (exec (.derive 256) State.reset)).map (fun t => (t.prN, t.prM, t.prPL, t.prPT))
        = some (256, 8, 0, 256) := by decide

/-- Table 2.1, faulting words. -/
theorem test_derive_faults :
    faultAfter (exec (.derive 0) State.reset) = some (some (.fN 0)) ∧
    faultAfter (exec (.derive 257) State.reset) = some (some (.fN 257)) := by decide

/-- S2, S3 and the last symbol of `N = 255`. -/
theorem test_encsym :
    (nextState (exec (.encsym 1) nine)).map (fun t => (t.code, t.len, t.rv)) = some (0b001, 3, true) ∧
    (nextState (exec (.encsym 7) nine)).map (fun t => (t.code, t.len, t.rv)) = some (0b1110, 4, true) ∧
    (nextState (exec (.encsym 254) (withParams 255 7 127 1))).map (fun t => (t.code, t.len)) = some (0xFF, 8) := by
  decide

/-- Table 2.3, faults. -/
theorem test_encsym_faults :
    faultAfter (exec (.encsym 0) State.reset) = some (some .fNoparam) ∧
    faultAfter (exec (.encsym 9) nine) = some (some (.fSym 9 none)) := by decide

theorem test_bsclr :
    (nextState (exec .bsclr { nineP1 with cur := 3 })).map (fun t => (t.bs, t.cur)) = some ([], 0) := by decide

/-- Program P1, line 6. -/
theorem test_pack :
    (nextState (exec .pack { nineP1 with bs := bitsOf 3 0b001 })).map (fun t => t.bs)
      = some (bitsOf 7 0b0011110) := by decide

theorem test_pack_fault : faultAfter (exec .pack nine) = some (some .fNovalue) := by decide

/-- Program P3, line 4: the low 9 bits. -/
theorem test_packi :
    (nextState (exec (.packi 0x1FF 9) { State.reset with bs := bitsOf 6 0b101100 })).map (fun t => t.bs)
      = some (bitsOf 15 0b101100111111111) := by decide

theorem test_packi_faults :
    faultAfter (exec (.packi 0 20) State.reset) = some (some (.fLen 20)) ∧
    faultAfter (exec (.packi 0b11 2) { State.reset with bs := bitsOf 7 0b1111111, caps := small 8 })
      = some (some (.fCap .bs)) := by decide

/-- Table 2.4. -/
theorem test_serialize :
    (nextState (exec .serialize nineP1)).map (fun t => t.obuf) = some [0x01, 0x3C] ∧
    (nextState (exec .serialize { nine with bs := bitsOf 9 0b101010101 })).map (fun t => t.obuf)
      = some [0x07, 0xAA, 0x80] := by decide

theorem test_serialize_fault :
    faultAfter (exec .serialize { State.reset with bs := bitsOf 9 0, caps := ⟨none, some 2, none⟩ })
      = some (some (.fCap .obuf)) := by decide

/-- Table 2.5. -/
theorem test_deserialize :
    (nextState (exec .deserialize { State.reset with ibuf := [0x04, 0x12, 0x30], cur := 5 })).map
      (fun t => (t.bs, t.cur)) = some (bitsOf 12 0b000100100011, 0) := by decide

theorem test_deserialize_faults :
    faultAfter (exec .deserialize State.reset) = some (some .fNohdr) ∧
    faultAfter (exec .deserialize { State.reset with ibuf := [0x08, 0xFF] }) = some (some (.fHdr 8)) ∧
    faultAfter (exec .deserialize { State.reset with ibuf := [0x03] }) = some (some (.fHdr 3)) := by decide

/-- Table 2.6: a long codeword, and one bit too few. -/
theorem test_decsym :
    (nextState (exec .decsym { nineP1 with cur := 3 })).map (fun t => (t.symo, t.cur, t.sv)) = some (7, 7, true) := by
  decide

theorem test_decsym_faults :
    faultAfter (exec .decsym { nine with bs := bitsOf 3 0b111 }) = some (some (.fTrunc 0)) ∧
    faultAfter (exec .decsym nine) = some (some .fEos) := by decide

/-- Table 2.7 and program P2. -/
theorem test_encode :
    (nextState (exec .encode { withParams 6 2 2 2 with ibuf := [0, 1, 2, 3, 4, 5] })).map
      (fun t => (t.obuf, t.code, t.len, t.cur)) = some ([0x00, 0x19, 0x77], 7, 3, 0) := by decide

/-- Program P7. -/
theorem test_encode_fault :
    faultAfter (exec .encode { nine with ibuf := [0, 200, 0] }) = some (some (.fSym 200 (some 1))) := by decide

/-- Table 2.8 and program P2. -/
theorem test_decode_buffer :
    (nextState (exec .decode { withParams 6 2 2 2 with ibuf := [0x00, 0x19, 0x77] })).map
      (fun t => (t.obuf, t.cur, t.symo)) = some ([0, 1, 2, 3, 4, 5], 16, 5) := by decide

/-- Program P7, traced in 95_test_vectors. -/
theorem test_decode_fault :
    faultAfter (exec .decode { nine with ibuf := [0x00, 0x19, 0x77] }) = some (some (.fTrunc 13)) := by decide

/-- `STATUS` after P1's last line, and after reset (table 2.10). -/
theorem test_status :
    ({ nineP1 with sv := true, cur := 7 } : State).status = 0xF#32 ∧ State.reset.status = 0x8#32 := by decide

/-- Reset clears a fault (60_exceptions R167). -/
theorem test_reset_clears_fault :
    faultAfter (step { takeFault .fEos nine with host := [.reset] }) = some none := by decide

/-! ### Witnesses: encoding, reset and the host -/

theorem witness_EncodeInvertsDecode : decode 0x5004000E#32 = .ok (.packi 0b1110 4) := by decide

/-- The hypotheses hold in reset states, for the first and last word of every clause. -/
theorem witness_ReservedWordsAreIllegal :
    [0x00000000#32, 0x0FFFFFFF#32, 0xB0000000#32, 0xFFFFFFFF#32, 0x10000200#32, 0x1FFFFFFF#32, 0x20000100#32,
      0x2FFFFFFF#32, 0x50200000#32, 0x5FFFFFFF#32, 0x30000001#32, 0x3FFFFFFF#32, 0x40000001#32, 0x60000001#32,
      0x70000001#32, 0x80000001#32, 0x90000001#32, 0xA0000001#32, 0xAFFFFFFF#32].all (fun w => decide
      (w.toNat / 2 ^ 28 = 0 ∨ 11 ≤ w.toNat / 2 ^ 28 ∨
      (w.toNat / 2 ^ 28 = 1 ∧ w.toNat / 2 ^ 9 % 2 ^ 19 ≠ 0) ∨
      (w.toNat / 2 ^ 28 = 2 ∧ w.toNat / 2 ^ 8 % 2 ^ 20 ≠ 0) ∨
      (w.toNat / 2 ^ 28 = 5 ∧ w.toNat / 2 ^ 21 % 2 ^ 7 ≠ 0) ∨
      (w.toNat / 2 ^ 28 ∈ [3, 4, 6, 7, 8, 9, 10] ∧ w.toNat % 2 ^ 28 ≠ 0))) = true ∧
    State.reset.fault = none := by decide

theorem witness_StepRunsTheDecodedCommand :
    ({ nine with host := [.command 0x20000007#32, .reset] } : State).host = .command 0x20000007#32 :: [.reset] ∧
    decode 0x20000007#32 = .ok (.encsym 7) := by
  and_intros <;> decide

theorem witness_ResetMayBeAppliedInAnyState :
    ({ takeFault .fEos nine with host := [.reset, .readBs] } : State).host = .reset :: [.readBs] := by decide

theorem witness_OnlyResetClearsTheFault :
    (takeFault .fEos { nine with host := [.reset] }).fault = some .fEos ∧
    (takeFault .fEos { nine with host := [.reset] }).host = .reset :: [] ∧
    (takeFault .fEos { nine with host := [.readBs] }).host = .readBs :: [] ∧ HostAction.readBs ≠ .reset := by
  and_intros <;> decide

theorem witness_CoreWaitsForTheHost : nineP1.host = [] := by decide

def loadFits : State :=
  { nine with caps := small 2, obuf := [1, 2], host := [.load [3, 4]] }

def xferOver : State :=
  { nine with caps := small 2, obuf := [1, 2, 3], host := [.xfer] }

/-- `LOAD` at the capacity and one byte above it; `.xfer` likewise. -/
theorem witness_LoadReplacesIbufOrIsRefused :
    loadFits.fault = none ∧ loadFits.host = .load [3, 4] :: [] ∧ admits loadFits.caps.ibuf [3, 4].length = true ∧
    xferOver.host = .xfer :: [] ∧ [1, 2, 3] = xferOver.obuf ∧
    admits xferOver.caps.ibuf [1, 2, 3].length = false := by
  and_intros <;> decide

def readsStatus : State :=
  { nineP1 with host := [.readRegister 1] }

theorem witness_StatusReadsTheFlags :
    readsStatus.fault = none ∧ readsStatus.host = .readRegister 1 :: [] := by
  and_intros <;> decide

/-- Every register number of the clauses, and the first and last refused ones. -/
theorem witness_HostReadsOfRegisters :
    [2, 3, 4, 5, 6, 7, 8, 9, 10, 11, 12].all (fun number => decide
      (({ nineP1 with host := [.readRegister number] } : State).host = .readRegister number :: [])) = true ∧
    nineP1.fault = none ∧ (0 = 0 ∨ 13 ≤ 0) ∧ (13 = 0 ∨ 13 ≤ 13) ∧
    (nextState (step { nineP1 with host := [.readRegister 8] })).map (fun t => t.answer) = some (some .noValue) ∧
    (nextState (step { nineP1 with host := [.readRegister 12] })).map (fun t => t.answer) = some (some (.value 0)) ∧
    (nextState (step { nineP1 with host := [.readRegister 13] })).map (fun t => t.answer) = some (some .refused) := by decide

theorem witness_HostReadsOfMemories :
    ({ nine with host := [.readIbuf] } : State).host = .readIbuf :: [] ∧
    ({ nine with host := [.readObuf] } : State).host = .readObuf :: [] ∧
    ({ nine with host := [.readBs] } : State).host = .readBs :: [] ∧ nine.fault = none := by
  and_intros <;> decide

/-! ### Witnesses: parameters and codewords -/

theorem witness_DeriveWritesTheParameters :
    State.reset.fault = none ∧ (1 ≤ (1 : AlphabetSize).toNat ∧ (1 : AlphabetSize).toNat ≤ 256) ∧
    (1 ≤ (256 : AlphabetSize).toNat ∧ (256 : AlphabetSize).toNat ≤ 256) ∧ (0 : AlphabetSize).toNat = 0 ∧
    256 < (257 : AlphabetSize).toNat ∧ 256 < (511 : AlphabetSize).toNat := by
  and_intros <;> decide

/-- Both ends of the range. -/
theorem witness_ParameterIdentity :
    State.reset.fault = none ∧ 1 ≤ (1 : AlphabetSize).toNat ∧ (1 : AlphabetSize).toNat ≤ 256 ∧
    1 ≤ (256 : AlphabetSize).toNat ∧ (256 : AlphabetSize).toNat ≤ 256 := by
  and_intros <;> decide

/-- One below a power of two, and a power of two. -/
theorem witness_ParameterClosedForms :
    State.reset.fault = none ∧ 1 ≤ (255 : AlphabetSize).toNat ∧ (255 : AlphabetSize).toNat ≤ 256 ∧
    1 ≤ (128 : AlphabetSize).toNat ∧ (128 : AlphabetSize).toNat ≤ 256 := by
  and_intros <;> decide

theorem witness_ParametersFixedInASession :
    ({ nine with host := [issue .decode] } : State).host = issue .decode :: [] ∧
    faultAfter (step { nine with ibuf := [0], host := [issue .decode] }) = some none ∧ issue .decode ≠ .reset ∧
    (∀ n, issue .decode ≠ issue (.derive n)) ∧ nineP1.fault = none := by
  refine ⟨by decide, by decide, by decide, ?_, by decide⟩
  intro n h
  have := n.isLt
  have h2 := congrArg BitVec.toNat (HostAction.command.inj h)
  simp [encode, encodeNat] at h2
  omega

/-- Every clause: no parameters; the first symbol out of range; the last short and the first long symbol. -/
theorem witness_EncsymWritesTheCodeword :
    nine.fault = none ∧ nine.Inv ∧ State.reset.Inv ∧ State.reset.pv = false ∧ nine.pv = true ∧
    nine.prN.toNat ≤ (9 : Byte).toNat ∧ ((6 : Byte).toNat < nine.prN.toNat ∧ (6 : Byte).toNat < nine.prPT.toNat) ∧
    ((7 : Byte).toNat < nine.prN.toNat ∧ nine.prPT.toNat ≤ (7 : Byte).toNat) ∧
    (8 : Byte).toNat < nine.prN.toNat := by
  and_intros <;> decide

theorem witness_LongCodewordClosedForm :
    nine.fault = none ∧ nine.Inv ∧ nine.pv = true ∧ nine.prPT.toNat ≤ (7 : Byte).toNat ∧
    (7 : Byte).toNat < nine.prN.toNat ∧ (8 : Byte).toNat < nine.prN.toNat := by
  and_intros <;> decide

/-- A codeword of length 0, one of length 8 in each of the two cases, and one of another length. -/
theorem witness_CodewordLengthBounds :
    (withParams 1 0 0 1).Inv ∧ (0 : Byte).toNat < (withParams 1 0 0 1).prN.toNat ∧
    (withParams 129 7 1 127).Inv ∧ (127 : Byte).toNat < (withParams 129 7 1 127).prN.toNat ∧
    (withParams 256 8 0 256).Inv ∧ (255 : Byte).toNat < (withParams 256 8 0 256).prN.toNat ∧
    nine.fault = none ∧ nine.Inv ∧ nine.pv = true ∧ (6 : Byte).toNat < nine.prN.toNat := by
  and_intros <;> decide

theorem witness_CodeFitsItsLength :
    nine.fault = none ∧ nine.Inv ∧ nine.pv = true ∧ (8 : Byte).toNat < nine.prN.toNat := by
  and_intros <;> decide

/-- `N = 15`: the first pair and the last of its seven. -/
def fifteen : State := withParams 15 3 7 1

theorem witness_LongSymbolsComeInPairs :
    fifteen.fault = none ∧ fifteen.Inv ∧ fifteen.pv = true ∧ 0 < fifteen.prPL.toNat ∧ 6 < fifteen.prPL.toNat := by
  and_intros <;> decide

theorem witness_ShortCodesAreNoLongPrefixes :
    nine.fault = none ∧ nine.Inv ∧ nine.pv = true ∧ (6 : Byte).toNat < nine.prPT.toNat ∧
    nine.prPT.toNat ≤ (7 : Byte).toNat ∧ (7 : Byte).toNat < nine.prN.toNat := by
  and_intros <;> decide

theorem witness_CodewordsArePrefixFree :
    nine.fault = none ∧ nine.Inv ∧ nine.pv = true ∧ (7 : Byte).toNat < nine.prN.toNat ∧
    (8 : Byte).toNat < nine.prN.toNat ∧ (7 : Byte) ≠ 8 := by
  and_intros <;> decide

theorem witness_EveryLongSequenceBeginsWithACodeword :
    nine.fault = none ∧ nine.Inv ∧ nine.pv = true ∧ nine.prM.toNat + 1 ≤ (bitsOf 4 0b1110).length ∧
    (7 : Byte).toNat < nine.prN.toNat ∧ nine.codeword 7 <+: bitsOf 4 0b1110 := by
  and_intros <;> decide

/-! ### Witnesses: the packer -/

theorem witness_BsclrEmptiesTheSequence : nineP1.fault = none := by decide

def packFits : State :=
  { nineP1 with caps := small 11 }

def packOver : State :=
  { nineP1 with caps := small 10 }

/-- Every clause, the capacity met exactly and passed by one bit. -/
theorem witness_PackAppendsThePair :
    packFits.fault = none ∧ packFits.Inv ∧ nine.Inv ∧ nine.rv = false ∧ packFits.rv = true ∧
    admits packFits.caps.bs (packFits.blen + packFits.len.toNat) = true ∧ packOver.Inv ∧ packOver.rv = true ∧
    admits packOver.caps.bs (packOver.blen + packOver.len.toNat) = false := by
  and_intros <;> decide

def packiFits : State :=
  { nineP1 with caps := small 23 }

def packiOver : State :=
  { nineP1 with caps := small 22 }

theorem witness_PackiAppendsTheImmediate :
    packiFits.fault = none ∧ packiFits.Inv ∧ 16 < (17 : LengthField).toNat ∧ (16 : LengthField).toNat ≤ 16 ∧
    admits packiFits.caps.bs (packiFits.blen + (16 : LengthField).toNat) = true ∧ packiOver.Inv ∧
    admits packiOver.caps.bs (packiOver.blen + (16 : LengthField).toNat) = false := by
  and_intros <;> decide

def somePairs : List (CodeWord × LengthField) :=
  [(0b10110, 5), (0, 1), (0x1FF, 9), (0xFFFF, 0)]

theorem witness_PackingKeepsTheOrder :
    (State.resetWith (small 15)).fault = none ∧ (∀ p ∈ somePairs, p.2.toNat ≤ 16) ∧
    admits (State.resetWith (small 15)).caps.bs (somePairs.map fun p => p.2.toNat).sum = true := by
  refine ⟨by decide, by simp [somePairs], by decide⟩

/-- A buffer of two bytes, at the capacity and above it. -/
theorem witness_SerializeWritesTheBuffer :
    nineP1.fault = none ∧ admits (small 2).obuf (1 + (nineP1.blen + 7) / 8) = true ∧
    admits (small 1).obuf (1 + (nineP1.blen + 7) / 8) = false ∧ 0 < 8 * ((nineP1.blen + 7) / 8) := by
  and_intros <;> decide

/-- Every clause: no byte, a header above 7, a header without payload, a buffer that fits, one that does not. -/
theorem witness_DeserializeRebuildsTheSequence :
    nine.fault = none ∧ nine.ibuf = [] ∧ ({ nine with ibuf := [8, 0] } : State).ibuf = 8 :: [0] ∧
    7 < (8 : Byte).toNat ∧ ({ nine with ibuf := [1] } : State).ibuf = 1 :: [] ∧ 0 < (1 : Byte).toNat ∧
    ({ nine with ibuf := [7, 0x80] } : State).ibuf = 7 :: [0x80] ∧ (7 : Byte).toNat ≤ 7 ∧
    admits (small 1).bs (8 * [(0x80 : Byte)].length - (7 : Byte).toNat) = true ∧
    admits (small 0).bs (8 * [(0x80 : Byte)].length - (7 : Byte).toNat) = false := by
  and_intros <;> decide

def padded : State :=
  { nine with ibuf := 0x01 :: ([] ++ [0x3C]) }

theorem witness_PaddingBitsAreIgnored :
    padded.ibuf = 0x01 :: ([] ++ [0x3C]) ∧
    (0x3C : Byte) >>> (0x01 : Byte).toNat = (0x3D : Byte) >>> (0x01 : Byte).toNat ∧
    faultAfter (exec .deserialize padded) = some none := by
  and_intros <;> decide

def serFits : State :=
  { nineP1 with caps := ⟨some 2, some 2, some 7⟩ }

def desFits : State :=
  { nine with ibuf := [0x01, 0x3D], caps := ⟨some 2, some 2, some 7⟩ }

theorem witness_SerializeAndDeserializeAreInverse :
    serFits.fault = none ∧ admits serFits.caps.bs serFits.blen = true ∧
    admits serFits.caps.obuf (1 + (serFits.blen + 7) / 8) = true ∧
    admits serFits.caps.ibuf (1 + (serFits.blen + 7) / 8) = true ∧ desFits.fault = none ∧
    desFits.ibuf = 0x01 :: [0x3D] ∧ (0x01 : Byte).toNat ≤ 7 ∧
    admits desFits.caps.bs (8 * [(0x3D : Byte)].length - (0x01 : Byte).toNat) = true ∧
    admits desFits.caps.obuf desFits.ilen = true := by
  and_intros <;> decide

/-! ### Witnesses: the decoder -/

theorem witness_ReadBitsIsMsbFirst : 3 + 4 ≤ (bitsOf 7 0b0011110).length ∧ readBits (bitsOf 7 0b0011110) 3 4 = 14 := by
  decide

def atShort : State :=
  { nine with bs := bitsOf 3 0b110 }

def atCut : State :=
  { nine with bs := bitsOf 2 0b11 }

def atPrefix : State :=
  { nine with bs := bitsOf 3 0b111 }

def atLong : State :=
  { nine with bs := bitsOf 4 0b1111 }

/-- Every clause: no parameters; at the end; fewer than `m` bits; a short codeword; `m` bits of a long one; a long
one. -/
theorem witness_DecsymDecodesOneCodeword :
    nine.fault = none ∧ State.reset.Inv ∧ State.reset.pv = false ∧ nine.Inv ∧ nine.pv = true ∧
    nine.cur = nine.blen ∧ atCut.Inv ∧ atCut.cur < atCut.blen ∧ atCut.blen - atCut.cur < atCut.prM.toNat ∧
    atShort.Inv ∧ atShort.cur < atShort.blen ∧ atShort.prM.toNat ≤ atShort.blen - atShort.cur ∧
    readBits atShort.bs atShort.cur atShort.prM.toNat < atShort.prPT.toNat ∧ atPrefix.Inv ∧
    atPrefix.blen - atPrefix.cur = atPrefix.prM.toNat ∧
    atPrefix.prPT.toNat ≤ readBits atPrefix.bs atPrefix.cur atPrefix.prM.toNat ∧ atLong.Inv ∧
    atLong.cur < atLong.blen ∧ atLong.prM.toNat + 1 ≤ atLong.blen - atLong.cur ∧
    atLong.prPT.toNat ≤ readBits atLong.bs atLong.cur atLong.prM.toNat := by
  and_intros <;> decide

def atSeven : State :=
  { nineP1 with cur := 3 }

theorem witness_DecsymInvertsEncsym :
    atSeven.Inv ∧ faultAfter (exec (.encsym 7) atSeven) = some none ∧
    1 ≤ atSeven.prM.toNat ∧ atSeven.cur < atSeven.blen ∧
    (nextState (exec (.encsym 7) atSeven)).all
      (fun t => decide (codeBits t.code t.len.toNat <+: atSeven.bs.drop atSeven.cur)) = true := by
  decide

def atEight : State :=
  { nine with bs := bitsOf 4 0b1111 }

theorem witness_DecodedSymbolsAreInTheAlphabet :
    atEight.Inv ∧ faultAfter (exec .decsym atEight) = some none := by
  and_intros <;> decide

def oneSymbol : State :=
  { withParams 1 0 0 1 with bs := bitsOf 3 0b101 }

theorem witness_OneSymbolDecsymStandsStill :
    oneSymbol.fault = none ∧ oneSymbol.Inv ∧ oneSymbol.pv = true ∧ oneSymbol.prN.toNat = 1 ∧
    oneSymbol.cur < oneSymbol.blen := by
  and_intros <;> decide

/-! ### Witnesses: the composites -/

def encFits : State :=
  { nine with ibuf := [1, 7], caps := ⟨none, some 2, some 7⟩ }

/-- At the smallest capacities that suffice, and for an empty input. -/
theorem witness_EncodeEndState :
    encFits.fault = none ∧ encFits.Inv ∧ encFits.pv = true ∧ (∀ sym ∈ encFits.ibuf, sym.toNat < encFits.prN.toNat) ∧
    admits encFits.caps.bs (encFits.ibuf.flatMap encFits.codeword).length = true ∧
    admits encFits.caps.obuf (1 + ((encFits.ibuf.flatMap encFits.codeword).length + 7) / 8) = true ∧
    (∀ sym ∈ nine.ibuf, sym.toNat < nine.prN.toNat) := by
  and_intros <;> decide

def encBad : State :=
  { nine with ibuf := [0, 200, 0] }

/-- The two codewords take seven bits; the byte after them is out of range. -/
def encFull : State :=
  { nine with ibuf := [1, 7, 200], caps := ⟨none, none, some 6⟩ }

def encTight : State :=
  { nine with ibuf := [1, 7], caps := ⟨none, some 1, none⟩ }

/-- Every clause. -/
theorem witness_EncodeFaults :
    State.reset.fault = none ∧ State.reset.Inv ∧ State.reset.pv = false ∧ encBad.Inv ∧ encBad.pv = true ∧
    encBad.ibuf = [0] ++ 200 :: [0] ∧ (∀ sym ∈ ([0] : List Byte), sym.toNat < encBad.prN.toNat) ∧
    encBad.prN.toNat ≤ (200 : Byte).toNat ∧
    admits encBad.caps.bs (([0] : List Byte).flatMap encBad.codeword).length = true ∧ encFull.Inv ∧
    encFull.ibuf = [1, 7] ++ [200] ∧ (∀ sym ∈ ([1, 7] : List Byte), sym.toNat < encFull.prN.toNat) ∧
    admits encFull.caps.bs (([1, 7] : List Byte).flatMap encFull.codeword).length = false ∧ encTight.Inv ∧
    admits encTight.caps.bs (encTight.ibuf.flatMap encTight.codeword).length = true ∧
    admits encTight.caps.obuf (1 + ((encTight.ibuf.flatMap encTight.codeword).length + 7) / 8) = false := by
  and_intros <;> decide

theorem witness_EncodeIsItsPrimitives : faultAfter (exec .encode { nine with ibuf := [1, 7] }) = some none := by decide

theorem witness_EncodingSize :
    ({ nine with ibuf := [1, 7] } : State).Inv ∧
    faultAfter (exec .encode { nine with ibuf := [1, 7] }) = some none := by
  and_intros <;> decide

/-- The last clause: the last payload byte of P1 is `3C`, with one padding bit. -/
theorem witness_PaddingCorrectness :
    faultAfter (exec .serialize nineP1) = some none ∧
    (nextState (exec .encode { nine with ibuf := [1, 7] })).map (fun t => (t.fault, t.obuf.tail.getLast?, t.blen))
      = some (none, some 0x3C, 7) ∧
    0 < (8 - 7 % 8) % 8 := by
  and_intros <;> decide

def decFits : State :=
  { nine with ibuf := [0x01, 0x3C], caps := ⟨none, some 2, some 7⟩ }

theorem witness_DecodeRecoversTheSymbols :
    decFits.fault = none ∧ decFits.Inv ∧ decFits.pv = true ∧ 1 ≤ decFits.prM.toNat ∧ decFits.ibuf = 0x01 :: [0x3C] ∧
    (0x01 : Byte).toNat ≤ 7 ∧ (∀ sym ∈ ([1, 7] : List Byte), sym.toNat < decFits.prN.toNat) ∧
    (bytesBits [0x3C]).take (8 * [(0x3C : Byte)].length - (0x01 : Byte).toNat) = [1, 7].flatMap decFits.codeword ∧
    admits decFits.caps.bs (8 * [(0x3C : Byte)].length - (0x01 : Byte).toNat) = true ∧
    admits decFits.caps.obuf ([1, 7] : List Byte).length = true := by
  and_intros <;> decide

def decFive : State :=
  { withParams 5 2 1 3 with ibuf := [0x03, 0xE0] }

theorem witness_DecodeEndState :
    decFive.Inv ∧ faultAfter (exec .decode decFive) = some none := by
  and_intros <;> decide

def decHeader : State :=
  { nine with ibuf := [0x09, 0x00] }

theorem witness_DecodeFaultsBeforeItsLoop :
    State.reset.fault = none ∧ State.reset.pv = false ∧ decHeader.fault = none ∧ decHeader.pv = true ∧
    faultAfter (exec .deserialize decHeader) = some (some (.fHdr 9)) := by
  and_intros <;> decide

def decCut : State :=
  { nine with ibuf := [0x00, 0x19, 0x77], caps := ⟨none, some 4, some 16⟩ }

/-- The same sequence with an `OBUF` that holds three of the four symbols. -/
def decFull : State :=
  { decCut with caps := ⟨none, some 3, some 16⟩ }

/-- The `N = 9` row of table 2.8 with buffer `00 19 77`: symbols 0, 6, 2, 7, then `111`; both clauses. -/
theorem witness_DecodeFaultsInItsLoop :
    decCut.fault = none ∧ decCut.Inv ∧ decCut.pv = true ∧ 1 ≤ decCut.prM.toNat ∧
    decCut.ibuf = 0x00 :: [0x19, 0x77] ∧ (0x00 : Byte).toNat ≤ 7 ∧
    (∀ sym ∈ ([0, 6, 2, 7] : List Byte), sym.toNat < decCut.prN.toNat) ∧ bitsOf 3 0b111 ≠ [] ∧
    (∀ sym : Byte, sym.toNat < decCut.prN.toNat → ¬ decCut.codeword sym <+: bitsOf 3 0b111) ∧
    (bytesBits [0x19, 0x77]).take (8 * [(0x19 : Byte), 0x77].length - (0x00 : Byte).toNat)
      = [0, 6, 2, 7].flatMap decCut.codeword ++ bitsOf 3 0b111 ∧
    admits decCut.caps.bs (8 * [(0x19 : Byte), 0x77].length - (0x00 : Byte).toNat) = true ∧
    admits decCut.caps.obuf ([0, 6, 2, 7] : List Byte).length = true ∧ decFull.Inv ∧
    admits decFull.caps.bs (8 * [(0x19 : Byte), 0x77].length - (0x00 : Byte).toNat) = true ∧
    admits decFull.caps.obuf ([0, 6, 2, 7] : List Byte).length = false := by
  and_intros <;> decide

theorem witness_DecodeIsItsPrimitives :
    (nextState (exec .decode { nine with ibuf := [0x01, 0x3C] })).map (fun t => (t.fault, t.olen)) = some (none, 2) := by
  decide

def oneZeros : State :=
  { withParams 1 0 0 1 with ibuf := [0, 0, 0], caps := ⟨none, some 1, none⟩ }

def oneEmpty : State :=
  { withParams 1 0 0 1 with ibuf := [0] }

def oneEndless : State :=
  { withParams 1 0 0 1 with ibuf := [0x07, 0x80] }

def oneFull : State :=
  { oneEndless with caps := ⟨none, some 4, some 1⟩ }

/-- Every clause: an input of zeros, the header alone, and a non-empty sequence with and without a capacity. -/
theorem witness_OneSymbolAlphabetBuffers :
    oneZeros.fault = none ∧ oneZeros.Inv ∧ oneZeros.pv = true ∧ oneZeros.prN.toNat = 1 ∧
    (∀ sym ∈ oneZeros.ibuf, sym = 0) ∧ admits oneZeros.caps.obuf 1 = true ∧ oneEmpty.Inv ∧ oneEmpty.ibuf = [0] ∧
    oneEndless.Inv ∧ oneEndless.ibuf = 0x07 :: [0x80] ∧ (0x07 : Byte).toNat ≤ 7 ∧ [(0x80 : Byte)] ≠ [] ∧
    admits oneEndless.caps.bs (8 * [(0x80 : Byte)].length - (0x07 : Byte).toNat) = true ∧
    oneEndless.caps.obuf = none ∧ oneFull.Inv ∧
    admits oneFull.caps.bs (8 * [(0x80 : Byte)].length - (0x07 : Byte).toNat) = true ∧
    oneFull.caps.obuf = some 4 := by
  and_intros <;> decide

def tripSyms : List Byte :=
  [0, 1, 2, 3, 4, 5]

def tripCaps : Caps :=
  ⟨some 6, some 6, some 16⟩

/-- `N = 6` as `DERIVE` leaves it, and `N = 1`. -/
def tripSix : State := { withParams 6 2 2 2 with caps := tripCaps }
def tripOne : State := { withParams 1 0 0 1 with caps := ⟨some 2, some 1, some 0⟩ }

/-- For `N = 6` and `N = 1`, at the smallest capacities that hold the buffers. -/
theorem witness_RoundTrip :
    (State.resetWith tripCaps).fault = none ∧ nextState (exec (.derive 6) (State.resetWith tripCaps)) = some tripSix ∧
    1 ≤ (6 : AlphabetSize).toNat ∧ (6 : AlphabetSize).toNat ≤ 256 ∧ 2 ≤ (6 : AlphabetSize).toNat ∧
    (∀ sym ∈ tripSyms, sym.toNat < (6 : AlphabetSize).toNat) ∧ admits tripCaps.ibuf tripSyms.length = true ∧
    admits tripCaps.bs (tripSyms.flatMap tripSix.codeword).length = true ∧
    admits tripCaps.obuf (1 + ((tripSyms.flatMap tripSix.codeword).length + 7) / 8) = true ∧
    admits tripCaps.ibuf (1 + ((tripSyms.flatMap tripSix.codeword).length + 7) / 8) = true ∧
    admits tripCaps.obuf tripSyms.length = true ∧
    nextState (exec (.derive 1) (State.resetWith tripOne.caps)) = some tripOne ∧ (1 : AlphabetSize).toNat = 1 ∧
    (∀ sym ∈ ([0, 0] : List Byte), sym.toNat < (1 : AlphabetSize).toNat) ∧
    admits tripOne.caps.ibuf ([0, 0] : List Byte).length = true ∧
    admits tripOne.caps.bs (([0, 0] : List Byte).flatMap tripOne.codeword).length = true ∧
    admits tripOne.caps.obuf (1 + ((([0, 0] : List Byte).flatMap tripOne.codeword).length + 7) / 8) = true ∧
    admits tripOne.caps.ibuf (1 + ((([0, 0] : List Byte).flatMap tripOne.codeword).length + 7) / 8) = true := by
  and_intros <;> decide

theorem witness_CompositeResultsIgnoreTheWorkingState :
    faultAfter (exec .encode { nineP1 with ibuf := [1, 7] }) = some none ∧
    faultAfter (exec .decode { nineP1 with ibuf := [0x01, 0x3C] }) = some none := by
  and_intros <;> decide

def encSuffices : State :=
  { nine with ibuf := [1, 7], caps := ⟨none, some 3, some 16⟩ }

def decSuffices : State :=
  { nine with ibuf := [0x01, 0x3C], caps := ⟨none, some 8, some 8⟩ }

theorem witness_SufficientCapacities :
    encSuffices.fault = none ∧ encSuffices.Inv ∧ encSuffices.pv = true ∧
    (∀ sym ∈ encSuffices.ibuf, sym.toNat < encSuffices.prN.toNat) ∧
    admits encSuffices.caps.bs (8 * encSuffices.ilen) = true ∧
    admits encSuffices.caps.obuf (1 + encSuffices.ilen) = true ∧ decSuffices.fault = none ∧ decSuffices.Inv ∧
    decSuffices.pv = true ∧ 2 ≤ decSuffices.prN.toNat ∧ decSuffices.ibuf = 0x01 :: [0x3C] ∧
    (0x01 : Byte).toNat ≤ 7 ∧ admits decSuffices.caps.bs (8 * (decSuffices.ilen - 1)) = true ∧
    admits decSuffices.caps.obuf (8 * (decSuffices.ilen - 1)) = true := by
  and_intros <;> decide

/-! ### Witnesses: the whole machine -/

theorem witness_EveryCommandEnds : nineP1.fault = none ∧ nineP1.pv = true ∧ 1 ≤ nineP1.prM.toNat := by decide

def wordFirst : State :=
  { State.reset with host := [.command 0x20000100#32] }

theorem witness_FaultsComeInTheirOrder :
    wordFirst.fault = none ∧ wordFirst.pv = false ∧ wordFirst.host = .command 0x20000100#32 :: [] := by
  and_intros <;> decide

def framed : State :=
  { nineP1 with ibuf := [0x01, 0x3C] }

/-- Every instruction has a next state without fault, so the frames speak of each. -/
theorem witness_RegistersOnlyTheirCommandsWrite :
    [.derive 6, .encsym 8, .bsclr, .pack, .packi 5 3, .serialize, .deserialize, .decsym, .decode].all
      (fun i => decide (faultAfter (exec i framed) = some none)) = true ∧
    faultAfter (exec .encode { framed with ibuf := [1, 7] }) = some none := by
  and_intros <;> decide

def framedFull : State :=
  { nineP1 with ibuf := [0x01, 0x3C], obuf := [1, 2, 3] }

theorem witness_MemoriesOnlyTheirCommandsWrite :
    [.derive 6, .encsym 8, .pack, .packi 5 3, .serialize, .decsym].all
      (fun i => decide (faultAfter (exec i framedFull) = some none)) = true ∧
    6 < framedFull.blen := by
  and_intros <;> decide

/-- The same core beside a host with another list, another answer and another count of free values. -/
def elsewhere : State :=
  { nineP1 with host := [.reset], answer := some .refused, draws := 7 }

/-- `PACK` completes in both, and `DECSYM` at the end of the sequence raises `F_EOS` in both; the stuck `DECODE` of the
last clause is the one-symbol buffer's. -/
theorem witness_ArchitecturalStateDecides :
    elsewhere.toArchState = nineP1.toArchState ∧ elsewhere.caps = nineP1.caps ∧ elsewhere ≠ nineP1 ∧
    nineP1.fault = none ∧ faultAfter (exec .pack nineP1) = some none ∧ oneEndless.fault = none ∧
    oneEndless.caps.obuf = none ∧ exec .decode oneEndless = .fault .neverReturns := by
  and_intros
  on_goal 8 => rfl
  all_goals decide

theorem witness_StepKeepsTheInvariant :
    ({ nineP1 with host := [issue .decsym] } : State).Inv ∧
    faultAfter (step { nineP1 with host := [issue .decsym] }) = some none := by
  and_intros <;> decide

end Sys2Proof.Tests
end

section
/-!
The capacities that suffice (00_scope R5): the end of `ENCODE` within given capacities, the causes the loop of `DECODE`
can raise when `OBUF` holds a byte for every bit left, and from the two O54.
-/

namespace Sys2Proof.Machine

/-! ### `ENCODE` within its capacities -/

@[simp] theorem afterEncode_bs (syms : List Byte) (s : State) :
    (afterEncode syms s).bs = s.bs ++ syms.flatMap s.codeword := by
  unfold afterEncode
  split
  · rename_i h; simp [List.getLast?_eq_none_iff.mp h]
  · rfl

@[simp] theorem afterEncode_caps (syms : List Byte) (s : State) : (afterEncode syms s).caps = s.caps := by
  unfold afterEncode; split <;> rfl

@[simp] theorem afterEncode_fault (syms : List Byte) (s : State) : (afterEncode syms s).fault = s.fault := by
  unfold afterEncode; split <;> rfl

/-- `ENCODE` of symbols of the alphabet whose codewords fit `BS` and whose buffer fits `OBUF`
(44_composite_operations R130). -/
theorem encodeBuffer_fits {s : State} (hpv : s.pv = true) (hp : s.ParamsOk)
    (hn : ∀ sym ∈ s.ibuf, sym.toNat < s.prN.toNat)
    (hbs : admits s.caps.bs (s.ibuf.flatMap s.codeword).length = true)
    (hobuf : admits s.caps.obuf (ceilDiv8 (s.ibuf.flatMap s.codeword).length + 1) = true) :
    encodeBuffer s =
      .done ((afterEncode s.ibuf ((s.writeBs []).writeCur 0)).writeObuf (serialized (s.ibuf.flatMap s.codeword))) := by
  have hbits : (afterEncode s.ibuf ((s.writeBs []).writeCur 0)).bs = s.ibuf.flatMap s.codeword := by
    rw [afterEncode_bs]; rfl
  have hloop : encodeLoop s.ibuf 0 ((s.writeBs []).writeCur 0) =
      .done (afterEncode s.ibuf ((s.writeBs []).writeCur 0)) :=
    encodeLoop_eq _ _ _ hpv hp hn (by rw [← hbits] at hbs; simpa using hbs)
  rw [encodeBuffer, requireParams, if_pos hpv, clearBits, Result.done_andThen]
  change (encodeLoop s.ibuf 0 _).andThen serialize = _
  rw [hloop, Result.done_andThen, serialize_eq, hbits, if_pos (by simpa using hobuf)]

/-- The bound of 45_laws R156 on an encoding, from the longest codeword's (45_laws R148). -/
theorem flatMap_codeword_length_le {s : State} (hp : s.ParamsOk) {syms : List Byte}
    (hn : ∀ sym ∈ syms, sym.toNat < s.prN.toNat) : (syms.flatMap s.codeword).length ≤ 8 * syms.length := by
  induction syms with
  | nil => simp
  | cons sym rest ih =>
    have hsym := hp.params.length_le (hn sym List.mem_cons_self)
    have hrest := ih fun x hx => hn x (List.mem_cons_of_mem _ hx)
    rw [List.flatMap_cons, List.length_append, codeword_length, List.length_cons]
    omega

/-- `ENCODE` cannot overflow a `BS` of 8 bits for each symbol and an `OBUF` of a byte for each and one more
(00_scope R5). -/
theorem exec_encode_completes {s : State} (hf : s.fault = none) (hpv : s.pv = true) (hp : s.ParamsOk)
    (hn : ∀ sym ∈ s.ibuf, sym.toNat < s.prN.toNat) (hbs : admits s.caps.bs (8 * s.ilen) = true)
    (hobuf : admits s.caps.obuf (1 + s.ilen) = true) : ∃ t, exec .encode s = .next t ∧ t.fault = none := by
  have hlen := flatMap_codeword_length_le hp hn
  have hbytes : ceilDiv8 (s.ibuf.flatMap s.codeword).length + 1 ≤ 1 + s.ilen := by
    unfold ceilDiv8 State.ilen; omega
  have hdone := encodeBuffer_fits hpv hp hn (admits_mono hlen hbs) (admits_mono hbytes hobuf)
  exact ⟨_, runCommand_done hf hdone, by simpa using hf⟩

/-! ### `DECODE` within its capacities -/

/-- A `DECSYM` before the end of the sequence, with the parameters set, can raise `F_TRUNC` only
(43_symbol_decoder R123). -/
theorem decodeSymbol_raised {s : State} {c : Cause} (hpv : s.pv = true) (hc : s.cur < s.bs.length)
    (h : decodeSymbol s = .raised c) : c = .fTrunc s.cur := by
  rw [decodeSymbol, requireParams, if_pos hpv, State.blen, if_neg (by omega)] at h
  split at h
  · cases h; rfl
  · split at h
    · cases h
    · split at h
      · cases h; rfl
      · cases h

/-- `DECSYM` writes `CUR`, `SYMO` and `SV` only (43_symbol_decoder R120). -/
theorem decodeSymbol_frame {s t : State} (h : decodeSymbol s = .done t) :
    t = { s with cur := t.cur, symo := t.symo, sv := t.sv } := by
  obtain ⟨-, -, -, ⟨-, rfl⟩ | ⟨-, b, -, rfl⟩⟩ := decodeSymbol_done h <;> rfl

/-- Each iteration reads a bit and appends one byte, so a loop whose `OBUF` has room for a byte for every bit left
raises nothing but `F_TRUNC`. -/
theorem decodeLoop_raised {fuel : Nat} {s : State} {c : Cause} (hpv : s.pv = true) (hm : 1 ≤ s.prM.toNat)
    (hc : s.cur ≤ s.bs.length) (hroom : admits s.caps.obuf (s.obuf.length + (s.bs.length - s.cur)) = true)
    (h : decodeLoop fuel s = .raised c) : ∃ cur, c = .fTrunc cur := by
  induction fuel generalizing s with
  | zero => rw [decodeLoop] at h; split at h <;> cases h
  | succ fuel ih =>
    rw [decodeLoop, State.blen] at h
    split at h
    case isFalse => cases h
    case isTrue hlt =>
      obtain hsym | ⟨t, ht, h⟩ := Result.andThen_eq_raised.mp h
      · exact ⟨s.cur, decodeSymbol_raised hpv hlt hsym⟩
      · obtain ⟨hadv, hend⟩ := decodeSymbol_cur ht hc
        have hframe := decodeSymbol_frame ht
        have hbs : t.bs = s.bs := by rw [hframe]
        have hobuf : t.obuf = s.obuf := by rw [hframe]
        have hcaps : t.caps = s.caps := by rw [hframe]
        have hfits : obufAppend t.symo t = .done (t.writeObuf (t.obuf ++ [t.symo])) :=
          obufAppend_fits (by rw [hcaps, hobuf]; exact admits_mono (by omega) hroom)
        rw [hfits, Result.done_andThen] at h
        refine ih (s := t.writeObuf (t.obuf ++ [t.symo])) ?_ ?_ ?_ ?_ h
        · rw [hframe]; exact hpv
        · rw [hframe]; exact hm
        · simpa [hbs] using hend
        · refine admits_mono ?_ (by simpa [hcaps] using hroom)
          simp [hbs, hobuf]; omega

/-- `DESERIALIZE` of a well-formed buffer whose sequence fits `BS` (42_bitstream_packer R105). -/
theorem deserialize_fits {s : State} {header : Byte} {payload : List Byte} (hb : s.ibuf = header :: payload)
    (hh : header.toNat ≤ 7) (he : payload = [] → header.toNat = 0)
    (hbs : admits s.caps.bs (8 * payload.length - header.toNat) = true) :
    deserialize s = .done ((s.writeBs (deserialized header.toNat payload)).writeCur 0) := by
  rw [deserialize_cons hb, if_neg, if_pos (.inr hbs)]
  rintro (h7 | ⟨hnil, hpos⟩)
  · omega
  · have := he hnil; omega

/-- `DECODE`, when its `DESERIALIZE` ends, is its loop from there (44_composite_operations R131). -/
theorem decodeBuffer_of_deserialize {s t : State} (hpv : s.pv = true) (h : deserialize s = .done t) :
    decodeBuffer s = decodeLoop (decodeFuel t) (t.writeObuf []) := by
  rw [decodeBuffer, requireParams, if_pos hpv, h, Result.done_andThen]

/-- `DECODE` of a well-formed buffer, with `PR.M ≥ 1`, cannot overflow a `BS` and an `OBUF` of 8 for each payload
byte: it completes or is truncated (00_scope R5). -/
theorem exec_decode_completes_or_truncates {s : State} {header : Byte} {payload : List Byte} (hf : s.fault = none)
    (hpv : s.pv = true) (hm : 1 ≤ s.prM.toNat) (hb : s.ibuf = header :: payload) (hh : header.toNat ≤ 7)
    (he : payload = [] → header.toNat = 0) (hbs : admits s.caps.bs (8 * payload.length) = true)
    (hobuf : admits s.caps.obuf (8 * payload.length) = true) :
    ∃ t, exec .decode s = .next t ∧ (t.fault = none ∨ ∃ cur, t.fault = some (.fTrunc cur)) := by
  have hdes := deserialize_fits hb hh he (admits_mono (Nat.sub_le _ _) hbs)
  have hbody := decodeBuffer_of_deserialize hpv hdes
  rw [exec_eq, commandBody]
  cases hloop : decodeBuffer s with
  | done t =>
    obtain ⟨hframe, -⟩ := decodeLoop_done (hbody.symm.trans hloop) (Nat.zero_le _)
    refine ⟨t, runCommand_done hf hloop, .inl ?_⟩
    rw [hframe]; exact hf
  | raised c =>
    obtain ⟨cur, rfl⟩ := decodeLoop_raised
      (s := ((s.writeBs (deserialized header.toNat payload)).writeCur 0).writeObuf []) hpv hm (Nat.zero_le _)
      (admits_mono (by simp [deserialized_length]) hobuf) (hbody.symm.trans hloop)
    exact ⟨_, runCommand_raised hf hloop, .inr ⟨cur, rfl⟩⟩
  | endless =>
    refine absurd (hbody.symm.trans hloop) (decodeLoop_not_endless hm (Nat.zero_le _) ?_)
    simp [decodeFuel]

/-- Settles O54: the codewords of `ILEN` symbols are at most `8 * ILEN` bits, and a `DECODE` with `PR.M ≥ 1` decodes at
most one symbol for each of the at most `8 * (ILEN - 1)` bits. -/
theorem sufficientCapacities : Obligations.SufficientCapacities := by
  intro s hf hinv hpv
  obtain ⟨-, -, -, -, hparams, -⟩ := hinv hf
  have hp := hparams hpv
  refine ⟨exec_encode_completes hf hpv hp, fun header payload hN hb hh he hbs hobuf => ?_⟩
  have hm : 1 ≤ s.prM.toNat := by
    have := hp.params.m_eq_zero
    omega
  have hlen : s.ilen - 1 = payload.length := by simp [hb]
  rw [hlen] at hbs hobuf
  exact exec_decode_completes_or_truncates hf hpv hm hb hh he hbs hobuf

end Sys2Proof.Machine
end

section
/-!
What a command and a host action can do when they end without fault: the pieces of state each command may write, and
the three ways a host action ends. From the first the frames O57 and O58, from both O19.
-/

namespace Sys2Proof.Machine

/-! ### Commands that run to their end -/

theorem deriveParams_done {n : AlphabetSize} {s t : State} (h : deriveParams n s = .done t) :
    1 ≤ n.toNat ∧ n.toNat ≤ 256 ∧
      t = s.writeParams n.toNat (floorLog2 n.toNat) (longPrefixes n.toNat) (threshold n.toNat) := by
  rw [deriveParams_eq] at h
  split at h
  case isTrue hn => cases h; exact ⟨hn.1, hn.2, rfl⟩
  case isFalse => cases h

theorem encodeSymbol_done {index : Option Nat} {sym : Byte} {s t : State} (h : encodeSymbol index sym s = .done t) :
    s.pv = true ∧ sym.toNat < s.prN.toNat ∧
      t = s.writePair (symbolCode s.prM.toNat s.prPT.toNat sym.toNat)
        (symbolLength s.prM.toNat s.prPT.toNat sym.toNat) := by
  rw [encodeSymbol_eq] at h
  split at h
  case isFalse => cases h
  case isTrue hpv =>
    split at h
    case isTrue hsym => cases h; exact ⟨hpv, hsym, rfl⟩
    case isFalse => cases h

theorem append_done {code : CodeWord} {len : Nat} {s t : State} (h : append code len s = .done t) :
    (len = 0 ∨ admits s.caps.bs (s.bs.length + len) = true) ∧ t = s.writeBs (s.bs ++ codeBits code len) := by
  rw [append_eq] at h
  split at h
  case isTrue hfit => cases h; exact ⟨hfit, rfl⟩
  case isFalse => cases h

theorem packPair_done {s t : State} (h : packPair s = .done t) :
    s.rv = true ∧ append s.code s.len.toNat s = .done t := by
  rw [packPair_eq] at h
  split at h
  case isTrue hrv => exact ⟨hrv, h⟩
  case isFalse => cases h

theorem packImmediate_done {code : CodeWord} {len : LengthField} {s t : State}
    (h : packImmediate code len s = .done t) : len.toNat ≤ 16 ∧ append code len.toNat s = .done t := by
  rw [packImmediate_eq] at h
  split at h
  case isTrue => cases h
  case isFalse hlen => exact ⟨by omega, h⟩

theorem obufAppend_done {v : Byte} {s t : State} (h : obufAppend v s = .done t) :
    admits s.caps.obuf (s.obuf.length + 1) = true ∧ t = s.writeObuf (s.obuf ++ [v]) := by
  rw [obufAppend_eq] at h
  split at h
  case isTrue hfit => cases h; exact ⟨hfit, rfl⟩
  case isFalse => cases h

theorem serialize_done {s t : State} (h : serialize s = .done t) :
    admits s.caps.obuf (serialized s.bs).length = true ∧ t = s.writeObuf (serialized s.bs) := by
  rw [serialize_eq] at h
  split at h
  case isTrue hfit => cases h; exact ⟨by rwa [serialized_length], rfl⟩
  case isFalse => cases h

theorem encodeBuffer_done {s t : State} (h : encodeBuffer s = .done t) :
    s.pv = true ∧ ∃ u, encodeLoop s.ibuf 0 ((s.writeBs []).writeCur 0) = .done u ∧ serialize u = .done t := by
  rw [encodeBuffer, requireParams] at h
  split at h
  case isTrue hpv => exact ⟨hpv, Result.andThen_eq_done.mp h⟩
  case isFalse => cases h

theorem decodeBuffer_done {s t : State} (h : decodeBuffer s = .done t) :
    s.pv = true ∧ ∃ u, deserialize s = .done u ∧ decodeLoop (decodeFuel u) (u.writeObuf []) = .done t := by
  rw [decodeBuffer, requireParams] at h
  split at h
  case isTrue hpv => exact ⟨hpv, Result.andThen_eq_done.mp h⟩
  case isFalse => cases h

/-! ### The write set of each command -/

/-- `Writes s i t`: the state `t` is `s` but for the pieces of state the command `i` may write (10_state R34). -/
inductive Writes (s : State) : Instr → State → Prop
  | derive (op : AlphabetSize) (n m pl pt : Nat) : Writes s (.derive op) (s.writeParams n m pl pt)
  | encsym (sym : Byte) (code len : Nat) : Writes s (.encsym sym) (s.writePair code len)
  | bsclr : Writes s .bsclr ((s.writeBs []).writeCur 0)
  | pack (bits : List Bool) : Writes s .pack (s.writeBs (s.bs ++ bits))
  | packi (code : CodeWord) (len : LengthField) (bits : List Bool) : Writes s (.packi code len) (s.writeBs (s.bs ++ bits))
  | serialize (bytes : List Byte) : Writes s .serialize (s.writeObuf bytes)
  | deserialize (bits : List Bool) : Writes s .deserialize ((s.writeBs bits).writeCur 0)
  | decsym (sym adv : Nat) : Writes s .decsym (s.writeSymbol sym adv)
  | encode (bits : List Bool) (code : CodeWord) (len : BitVec 8) (rv : Bool) (bytes : List Byte) :
      Writes s .encode { s with bs := bits, cur := 0, code := code, len := len, rv := rv, obuf := bytes }
  | decode (bits : List Bool) (cur : Nat) (symo : Byte) (sv : Bool) (bytes : List Byte) :
      Writes s .decode { s with bs := bits, cur := cur, symo := symo, sv := sv, obuf := bytes }

theorem encodeBuffer_writes {s t : State} (h : encodeBuffer s = .done t) : Writes s .encode t := by
  obtain ⟨-, u, hloop, hser⟩ := encodeBuffer_done h
  obtain ⟨hu, -⟩ := encodeLoop_frame hloop
  obtain ⟨-, rfl⟩ := serialize_done hser
  rw [hu]
  exact .encode u.bs u.code u.len u.rv _

theorem decodeBuffer_writes {s t : State} (h : decodeBuffer s = .done t) : Writes s .decode t := by
  obtain ⟨-, u, hdes, hloop⟩ := decodeBuffer_done h
  obtain ⟨header, payload, -, -, -, -, rfl⟩ := deserialize_done hdes
  obtain ⟨ht, -⟩ := decodeLoop_done hloop (Nat.zero_le _)
  rw [ht]
  exact .decode _ t.cur t.symo t.sv t.obuf

/-- A command that runs to its end has written within its write set. -/
theorem commandBody_writes {i : Instr} {s t : State} (h : commandBody i s = .done t) : Writes s i t := by
  cases i with
  | derive n => obtain ⟨-, -, rfl⟩ := deriveParams_done h; exact .derive n _ _ _ _
  | encsym sym => obtain ⟨-, -, rfl⟩ := encodeSymbol_done h; exact .encsym sym _ _
  | bsclr => cases h; exact .bsclr
  | pack => obtain ⟨-, rfl⟩ := append_done (packPair_done h).2; exact .pack _
  | packi code len => obtain ⟨-, rfl⟩ := append_done (packImmediate_done h).2; exact .packi code len _
  | serialize => obtain ⟨-, rfl⟩ := serialize_done h; exact .serialize _
  | deserialize => obtain ⟨header, payload, -, -, -, -, rfl⟩ := deserialize_done h; exact .deserialize _
  | decsym => obtain ⟨-, -, -, ⟨-, rfl⟩ | ⟨-, b, -, rfl⟩⟩ := decodeSymbol_done h <;> exact .decsym _ _
  | encode => exact encodeBuffer_writes h
  | decode => exact decodeBuffer_writes h

/-- An instruction that ends without fault ran its pseudocode to the end. -/
theorem exec_next_done {i : Instr} {s t : State} (h : exec i s = .next t) (ht : t.fault = none) :
    s.fault = none ∧ commandBody i s = .done t := by
  rw [exec_eq] at h
  exact runCommand_next_done h ht

theorem exec_writes {i : Instr} {s t : State} (h : exec i s = .next t) (ht : t.fault = none) : Writes s i t :=
  commandBody_writes (exec_next_done h ht).2

/-! ### The frames -/

theorem Writes.params {i : Instr} {s t : State} (h : Writes s i t) (hi : ∀ n, i ≠ .derive n) :
    t.prN = s.prN ∧ t.prM = s.prM ∧ t.prPL = s.prPL ∧ t.prPT = s.prPT ∧ t.pv = s.pv := by
  cases h with
  | derive n => exact absurd rfl (hi n)
  | _ => exact ⟨rfl, rfl, rfl, rfl, rfl⟩

theorem Writes.pair {i : Instr} {s t : State} (h : Writes s i t) (he : ∀ sym, i ≠ .encsym sym) (hb : i ≠ .encode) :
    t.code = s.code ∧ t.len = s.len ∧ t.rv = s.rv := by
  cases h with
  | encsym sym => exact absurd rfl (he sym)
  | encode => exact absurd rfl hb
  | _ => exact ⟨rfl, rfl, rfl⟩

theorem Writes.symbol {i : Instr} {s t : State} (h : Writes s i t) (hd : i ≠ .decsym) (hb : i ≠ .decode) :
    t.symo = s.symo ∧ t.sv = s.sv := by
  cases h with
  | decsym => exact absurd rfl hd
  | decode => exact absurd rfl hb
  | _ => exact ⟨rfl, rfl⟩

theorem Writes.cur {i : Instr} {s t : State} (h : Writes s i t) (hc : i ≠ .bsclr) (hr : i ≠ .deserialize)
    (hd : i ≠ .decsym) (he : i ≠ .encode) (hb : i ≠ .decode) : t.cur = s.cur := by
  cases h with
  | bsclr => exact absurd rfl hc
  | deserialize => exact absurd rfl hr
  | decsym => exact absurd rfl hd
  | encode => exact absurd rfl he
  | decode => exact absurd rfl hb
  | _ => rfl

theorem Writes.ibuf {i : Instr} {s t : State} (h : Writes s i t) : t.ibuf = s.ibuf := by
  cases h <;> rfl

theorem Writes.obuf {i : Instr} {s t : State} (h : Writes s i t) (hs : i ≠ .serialize) (he : i ≠ .encode)
    (hd : i ≠ .decode) : t.obuf = s.obuf := by
  cases h with
  | serialize => exact absurd rfl hs
  | encode => exact absurd rfl he
  | decode => exact absurd rfl hd
  | _ => rfl

theorem Writes.bs {i : Instr} {s t : State} (h : Writes s i t)
    (hi : i = .serialize ∨ i = .decsym ∨ (∃ n, i = .derive n) ∨ ∃ sym, i = .encsym sym) : t.bs = s.bs := by
  obtain rfl | rfl | ⟨n, rfl⟩ | ⟨sym, rfl⟩ := hi <;> cases h <;> rfl

theorem Writes.bs_append {i : Instr} {s t : State} (h : Writes s i t)
    (hi : i = .pack ∨ ∃ code len, i = .packi code len) : ∃ bits, t.bs = s.bs ++ bits := by
  obtain rfl | ⟨code, len, rfl⟩ := hi <;> cases h <;> exact ⟨_, rfl⟩

theorem Writes.toEnvironment {i : Instr} {s t : State} (h : Writes s i t) : t.toEnvironment = s.toEnvironment := by
  cases h <;> rfl

/-- Settles O57, from the write set of each command. -/
theorem registersOnlyTheirCommandsWrite : Obligations.RegistersOnlyTheirCommandsWrite := by
  intro i s t h ht
  have hw := exec_writes h ht
  exact ⟨hw.params, hw.pair, hw.symbol, hw.cur⟩

/-- Settles O58, from the write set of each command; an append keeps every bit below the old length. -/
theorem memoriesOnlyTheirCommandsWrite : Obligations.MemoriesOnlyTheirCommandsWrite := by
  intro i s t h ht
  have hw := exec_writes h ht
  have henv := hw.toEnvironment
  refine ⟨fun a => by rw [hw.ibuf], fun hs he hd a => by rw [hw.obuf hs he hd], fun hi k => by rw [hw.bs hi],
    fun hi k hk => ?_, congrArg Environment.caps henv, congrArg Environment.host henv,
    congrArg Environment.answer henv, congrArg Environment.draws henv⟩
  obtain ⟨bits, hbits⟩ := hw.bs_append hi
  rw [hbits]
  exact List.getElem?_append_left hk

/-! ### Host actions -/

/-- `Performs s a t`: the ways an action `a` that leaves no fault can end (10_state R35). A refused `LOAD` and a read
reply; nothing but reset acts on a faulted state (60_exceptions R167). -/
inductive Performs (s : State) : HostAction → State → Prop
  | reset : Performs s .reset (applyReset s)
  | command {w : CommandWord} {i : Instr} {t : State} (hf : s.fault = none) (hw : Sys2Proof.decode w = .ok i)
      (hb : commandBody i s = .done t) : Performs s (.command w) t
  | load {a : HostAction} {bytes : List Byte} (hf : s.fault = none)
      (hfit : admits s.caps.ibuf bytes.length = true) : Performs s a (s.writeIbuf bytes)
  | reply {a : HostAction} (hf : s.fault = none) (ans : Answer) : Performs s a (s.reply ans)

theorem loadBytes_performs {a : HostAction} {bytes : List Byte} {s t : State} (hf : s.fault = none)
    (h : loadBytes bytes s = .done t) : Performs s a t := by
  rw [loadBytes] at h
  split at h
  case isTrue hfit => cases h; exact .load hf hfit
  case isFalse => cases h; exact .reply hf _

theorem read_performs {a : HostAction} {read : State → Answer} {s t : State}
    (h : runCommand (fun u => .done (u.reply (read u))) s = .next t) (ht : t.fault = none) : Performs s a t := by
  obtain ⟨hf, hb⟩ := runCommand_next_done h ht
  cases hb
  exact .reply hf _

theorem issueCommand_performs {w : CommandWord} {s t : State} (h : issueCommand w s = .next t) (ht : t.fault = none) :
    Performs s (.command w) t := by
  cases hw : Sys2Proof.decode w with
  | ok i =>
    rw [issueCommand_ok hw] at h
    obtain ⟨hf, hb⟩ := exec_next_done h ht
    exact .command hf hw hb
  | error r =>
    rw [issueCommand_error hw] at h
    obtain ⟨-, hb⟩ := runCommand_next_done h ht
    cases hb

theorem perform_performs {a : HostAction} {s t : State} (h : perform a s = .next t) (ht : t.fault = none) :
    Performs s a t := by
  cases a with
  | command w => exact issueCommand_performs h ht
  | load bytes => obtain ⟨hf, hb⟩ := runCommand_next_done h ht; exact loadBytes_performs hf hb
  | xfer => obtain ⟨hf, hb⟩ := runCommand_next_done h ht; exact loadBytes_performs hf hb
  | readRegister number => exact read_performs (read := fun u => registerAnswer u number) h ht
  | readIbuf => exact read_performs (read := fun u => .bytes u.ibuf) h ht
  | readObuf => exact read_performs (read := fun u => .bytes u.obuf) h ht
  | readBs => exact read_performs (read := fun u => .bits u.bs) h ht
  | reset => cases h; exact .reset

/-! ### The parameters in a session -/

theorem whenZero_eq_ok {op z : Nat} {i j : Instr} : whenZero op z i = .ok j ↔ z = 0 ∧ i = j := by
  unfold whenZero; split <;> simp [*]

/-- A word that decodes to `DERIVE n` is its encoding: `OP` and the must-be-zero bits fix the rest (30_encoding R71,
R72). -/
theorem eq_encode_of_decode_derive {w : CommandWord} {n : AlphabetSize}
    (h : Sys2Proof.decode w = .ok (.derive n)) : w = encode (.derive n) := by
  unfold Sys2Proof.decode at h
  split at h
  case h_1 hop =>
    obtain ⟨hz, hn⟩ := whenZero_eq_ok.mp h
    cases hn
    have hlt := w.isLt
    apply BitVec.eq_of_toNat_eq
    simp only [field] at hop hz
    simp only [encode, encodeNat, field, BitVec.toNat_ofNat]
    omega
  all_goals simp [whenZero_eq_ok] at h

/-- A host action but reset and the word of a `DERIVE` leaves the parameters and `PV` (10_state R16). -/
theorem Performs.params {a : HostAction} {s t : State} (h : Performs s a t) (hr : a ≠ .reset)
    (hd : ∀ n, a ≠ issue (.derive n)) :
    t.prN = s.prN ∧ t.prM = s.prM ∧ t.prPL = s.prPL ∧ t.prPT = s.prPT ∧ t.pv = s.pv := by
  cases h with
  | reset => exact absurd rfl hr
  | command hf hw hb =>
    refine (commandBody_writes hb).params fun n hn => hd n ?_
    subst hn
    rw [issue, ← eq_encode_of_decode_derive hw]
  | load => exact ⟨rfl, rfl, rfl, rfl, rfl⟩
  | reply => exact ⟨rfl, rfl, rfl, rfl, rfl⟩

/-- `DERIVE` of a size from 1 to 256 completes in every state without fault (40_parameter_deriver R80). -/
theorem exec_derive {s : State} {n : AlphabetSize} (hf : s.fault = none) (h1 : 1 ≤ n.toNat) (h2 : n.toNat ≤ 256) :
    exec (.derive n) s =
      .next (s.writeParams n.toNat (floorLog2 n.toNat) (longPrefixes n.toNat) (threshold n.toNat)) :=
  runCommand_done hf (by rw [deriveParams_eq, if_pos ⟨h1, h2⟩])

/-- Settles O19: a word that decodes to `DERIVE` is its encoding, and no other command has a parameter in its write
set. -/
theorem parametersFixedInASession : Obligations.ParametersFixedInASession := by
  refine ⟨fun s t a rest hhost hstep ht hr hd => ?_, fun s n hf h1 h2 => ⟨_, exec_derive hf h1 h2, rfl⟩⟩
  rw [step_cons hhost] at hstep
  exact (perform_performs hstep ht).params hr hd

end Sys2Proof.Machine
end

section
/-!
The invariant of 10_state R34: one rule for each write, one for each command, and from them O8 and O59.
-/

namespace Sys2Proof.Machine

/-- What the invariant says of a state without fault (10_state R34). -/
structure State.Sound (s : State) : Prop where
  cur_le : s.cur ≤ s.bs.length
  bs_fits : admits s.caps.bs s.bs.length = true
  ibuf_fits : admits s.caps.ibuf s.ibuf.length = true
  obuf_fits : admits s.caps.obuf s.obuf.length = true
  params : s.pv = true → s.ParamsOk
  pair : s.rv = true → s.len.toNat ≤ 8 ∧ s.code.toNat < 2 ^ s.len.toNat

theorem State.inv_iff_sound {s : State} : s.Inv ↔ (s.fault = none → s.Sound) :=
  ⟨fun h hf => by
    obtain ⟨hcur, hbs, hibuf, hobuf, hparams, hpair⟩ := h hf
    exact ⟨hcur, hbs, hibuf, hobuf, hparams, hpair⟩,
   fun h hf => ⟨(h hf).cur_le, (h hf).bs_fits, (h hf).ibuf_fits, (h hf).obuf_fits, (h hf).params, (h hf).pair⟩⟩

@[simp] theorem admits_zero (cap : Capacity) : admits cap 0 = true := by
  cases cap <;> simp

/-! ### Reset and the writes -/

theorem State.sound_of_reset {s : State} (h : s.toArchState = ArchState.reset) : s.Sound := by
  obtain ⟨a, e⟩ := s
  cases h
  exact ⟨Nat.le_refl _, admits_zero _, admits_zero _, admits_zero _, nofun, nofun⟩

section
variable {s : State} (h : s.Sound)
include h

theorem State.Sound.takeAction (rest : List HostAction) : (s.takeAction rest).Sound := { h with }

theorem State.Sound.reply (a : Answer) : (s.reply a).Sound := { h with }

theorem State.Sound.writeIbuf {bytes : List Byte} (hfit : admits s.caps.ibuf bytes.length = true) :
    (s.writeIbuf bytes).Sound := { h with ibuf_fits := hfit }

theorem State.Sound.writeObuf {bytes : List Byte} (hfit : admits s.caps.obuf bytes.length = true) :
    (s.writeObuf bytes).Sound := { h with obuf_fits := hfit }

/-- A new sequence, with the cursor at its start. -/
theorem State.Sound.restart {bits : List Bool} (hfit : admits s.caps.bs bits.length = true) :
    ((s.writeBs bits).writeCur 0).Sound := { h with cur_le := Nat.zero_le _, bs_fits := hfit }

theorem State.Sound.writeParams {n : Nat} (h1 : 1 ≤ n) (h2 : n ≤ 256) :
    (s.writeParams n (floorLog2 n) (longPrefixes n) (threshold n)).Sound :=
  { h with params := fun _ => writeParams_paramsOk s h1 h2 }

/-- The codeword of a symbol of the alphabet fits `CODE` and `LEN`, and `CODE` fits `LEN` bits (45_laws R148, R149). -/
theorem State.Sound.writePair (hpv : s.pv = true) {sym : Nat} (hsym : sym < s.prN.toNat) :
    (s.writePair (symbolCode s.prM.toNat s.prPT.toNat sym) (symbolLength s.prM.toNat s.prPT.toNat sym)).Sound :=
  { h with
    pair := fun _ => by
      have hp := (h.params hpv).params
      have hlen := hp.length_le hsym
      have hcode := hp.code_lt hsym
      have hsmall := hp.code_lt_256 hsym
      rw [State.writePair_len, State.writePair_code, BitVec.toNat_ofNat, BitVec.toNat_ofNat,
        Nat.mod_eq_of_lt (a := symbolLength _ _ _) (by omega), Nat.mod_eq_of_lt (a := symbolCode _ _ _) (by omega)]
      exact ⟨hlen, hcode⟩ }

/-! ### The commands -/

variable {t : State}

theorem State.Sound.append {code : CodeWord} {len : Nat} (ht : append code len s = .done t) : t.Sound := by
  obtain ⟨hfit, rfl⟩ := append_done ht
  have hcur := h.cur_le
  refine { h with cur_le := ?_, bs_fits := ?_ }
  · simp; omega
  · obtain rfl | hfit := hfit
    · simpa using h.bs_fits
    · simpa using hfit

theorem State.Sound.obufAppend {v : Byte} (ht : obufAppend v s = .done t) : t.Sound := by
  obtain ⟨hfit, rfl⟩ := obufAppend_done ht
  exact h.writeObuf (by simpa using hfit)

theorem State.Sound.encodeSymbol {index : Option Nat} {sym : Byte} (ht : encodeSymbol index sym s = .done t) :
    t.Sound := by
  obtain ⟨hpv, hsym, rfl⟩ := encodeSymbol_done ht
  exact h.writePair hpv hsym

theorem State.Sound.packPair (ht : packPair s = .done t) : t.Sound :=
  h.append (packPair_done ht).2

theorem State.Sound.serialize (ht : serialize s = .done t) : t.Sound := by
  obtain ⟨hfit, rfl⟩ := serialize_done ht
  exact h.writeObuf hfit

theorem State.Sound.deserialize (ht : deserialize s = .done t) : t.Sound := by
  obtain ⟨header, payload, -, -, -, hfit, rfl⟩ := deserialize_done ht
  refine h.restart ?_
  obtain hnil | hfit := hfit
  · rw [hnil]; exact admits_zero _
  · rwa [deserialized_length]

theorem State.Sound.decodeSymbol (ht : decodeSymbol s = .done t) : t.Sound := by
  have hcur := (decodeSymbol_cur ht h.cur_le).2
  rw [decodeSymbol_frame ht]
  exact { h with cur_le := hcur }

end

theorem State.Sound.encodeLoop {syms : List Byte} {i : Nat} {s t : State} (h : s.Sound)
    (ht : encodeLoop syms i s = .done t) : t.Sound := by
  induction syms generalizing i s with
  | nil => cases ht; exact h
  | cons sym rest ih =>
    obtain ⟨u, hu, ht⟩ := Result.andThen_eq_done.mp ht
    obtain ⟨v, hv, ht⟩ := Result.andThen_eq_done.mp ht
    exact ih ((h.encodeSymbol hu).packPair hv) ht

theorem State.Sound.decodeLoop {fuel : Nat} {s t : State} (h : s.Sound) (ht : decodeLoop fuel s = .done t) :
    t.Sound := by
  induction fuel generalizing s with
  | zero =>
    rw [Machine.decodeLoop] at ht
    split at ht
    case isTrue => cases ht
    case isFalse => cases ht; exact h
  | succ fuel ih =>
    rw [Machine.decodeLoop] at ht
    split at ht
    case isTrue =>
      obtain ⟨u, hu, ht⟩ := Result.andThen_eq_done.mp ht
      obtain ⟨v, hv, ht⟩ := Result.andThen_eq_done.mp ht
      exact ih ((h.decodeSymbol hu).obufAppend hv) ht
    case isFalse => cases ht; exact h

theorem State.Sound.commandBody {i : Instr} {s t : State} (h : s.Sound) (ht : commandBody i s = .done t) :
    t.Sound := by
  cases i with
  | derive n => obtain ⟨h1, h2, rfl⟩ := deriveParams_done ht; exact h.writeParams h1 h2
  | encsym sym => exact h.encodeSymbol ht
  | bsclr => cases ht; exact h.restart (admits_zero _)
  | pack => exact h.packPair ht
  | packi code len => exact h.append (packImmediate_done ht).2
  | serialize => exact h.serialize ht
  | deserialize => exact h.deserialize ht
  | decsym => exact h.decodeSymbol ht
  | encode =>
    obtain ⟨-, u, hloop, hser⟩ := encodeBuffer_done ht
    exact ((h.restart (admits_zero _)).encodeLoop hloop).serialize hser
  | decode =>
    obtain ⟨-, u, hdes, hloop⟩ := decodeBuffer_done ht
    exact ((h.deserialize hdes).writeObuf (admits_zero _)).decodeLoop hloop

theorem Performs.sound {a : HostAction} {s t : State} (h : Performs s a t) (hs : s.Inv) : t.Sound := by
  rw [State.inv_iff_sound] at hs
  cases h with
  | reset => exact State.sound_of_reset rfl
  | command hf hw hb => exact (hs hf).commandBody hb
  | load hf hfit => exact (hs hf).writeIbuf hfit
  | reply hf ans => exact (hs hf).reply ans

/-- Settles O8: an empty core under clear valid bits satisfies every clause. -/
theorem resetSatisfiesTheInvariant : Obligations.ResetSatisfiesTheInvariant :=
  ⟨State.inv_iff_sound.mpr fun _ => State.sound_of_reset rfl,
   fun _ => State.inv_iff_sound.mpr fun _ => State.sound_of_reset rfl⟩

/-- Settles O59: a step without a fault after it is one host action, and each keeps the invariant's body. -/
theorem stepKeepsTheInvariant : Obligations.StepKeepsTheInvariant := by
  intro s t hinv hstep
  cases hhost : s.host with
  | nil =>
    rw [step_nil hhost] at hstep
    cases hstep
    exact hinv
  | cons a rest =>
    rw [step_cons hhost] at hstep
    exact State.inv_iff_sound.mpr fun ht => (perform_performs hstep ht).sound (s := s.takeAction rest) hinv

end Sys2Proof.Machine
end

section
/-!
What reaches a command: the word of a step (O6), and of what is beside the core the capacities only (O60).
-/

namespace Sys2Proof.Machine

/-- Settles O6: the step takes the host's action, and the word is decoded before anything else. -/
theorem stepRunsTheDecodedCommand : Obligations.StepRunsTheDecodedCommand := by
  intro s w rest i hhost hw
  rw [step_cons hhost, perform, issueCommand_ok hw]
  rfl

/-- A command that never ends has no next state (44_composite_operations R133). -/
theorem runCommand_endless {s : State} {body : State → Result} (hf : s.fault = none) (h : body s = .endless) :
    runCommand body s = .fault .neverReturns := by
  simp [runCommand, hf, h]

/-- Settles O60: the pseudocode of a command commutes with a change of what is beside the core. -/
theorem architecturalStateDecides : Obligations.ArchitecturalStateDecides := by
  intro i s s' harch hcaps hf
  obtain ⟨e, rfl⟩ : ∃ e, s' = s.beside e := ⟨_, State.eq_beside harch hcaps⟩
  have hf' : (s.beside e).fault = none := hf
  have hbody := commandBody_beside e i s
  rw [exec_eq, exec_eq]
  cases hr : commandBody i s with
  | done u =>
    rw [hr] at hbody
    rw [runCommand_done hf hr, runCommand_done hf' hbody]
    refine ⟨fun t ht => ?_, nofun⟩
    cases ht
    exact ⟨u.beside e, rfl, rfl, fun _ => rfl⟩
  | raised c =>
    rw [hr] at hbody
    rw [runCommand_raised hf hr, runCommand_raised hf' hbody]
    refine ⟨fun t ht => ?_, nofun⟩
    cases ht
    exact ⟨takeFault c (s.beside e), rfl, by simp, by simp⟩
  | endless =>
    rw [hr] at hbody
    rw [runCommand_endless hf hr, runCommand_endless hf' hbody]
    exact ⟨by simp, fun f hfault => hfault⟩

end Sys2Proof.Machine
end

section
/-!
The host's own actions (10_state R35): the reset values as it reads them (O7), `LOAD` and `.xfer` (O12), and its reads
(O13, O14, O15).
-/

namespace Sys2Proof.Machine

/-- A host action whose pseudocode ends, in a state without fault. -/
theorem step_done {s t : State} {a : HostAction} {rest : List HostAction} (body : State → Result)
    (hf : s.fault = none) (hhost : s.host = a :: rest) (ha : perform a = runCommand body)
    (hb : body (s.takeAction rest) = .done t) : step s = .next t := by
  rw [step_cons hhost, ha]
  exact runCommand_done (s := s.takeAction rest) hf hb

/-- A host read changes nothing but the answer (20_memory R49). -/
theorem step_read {s : State} {a : HostAction} {rest : List HostAction} (read : State → Answer) (hf : s.fault = none)
    (hhost : s.host = a :: rest) (ha : perform a = runCommand fun u => .done (u.reply (read u))) :
    step s = .next { s with host := rest, answer := some (read (s.takeAction rest)) } :=
  step_done _ hf hhost ha rfl

theorem step_readRegister {s : State} {number : Nat} {rest : List HostAction} (hf : s.fault = none)
    (hhost : s.host = .readRegister number :: rest) :
    step s = .next { s with host := rest, answer := some (registerAnswer s number) } :=
  step_read (fun u => registerAnswer u number) hf hhost rfl

/-- `.xfer` is the `LOAD` of `OBUF` (30_encoding R76). -/
theorem step_loadBytes {s t : State} {bytes : List Byte} {rest : List HostAction} (hf : s.fault = none)
    (hhost : s.host = .load bytes :: rest ∨ (s.host = .xfer :: rest ∧ bytes = s.obuf))
    (h : loadBytes bytes (s.takeAction rest) = .done t) : step s = .next t := by
  obtain hload | ⟨hxfer, rfl⟩ := hhost
  · exact step_done (loadBytes bytes) hf hload rfl h
  · exact step_done (fun u => loadBytes u.obuf u) hf hxfer rfl h

theorem eos_eq_true_iff (s : State) : s.eos = true ↔ s.cur = s.blen := by
  simp [State.eos]

/-- The bits of `STATUS` (10_state R25). -/
theorem status_bits (s : State) :
    s.status.getLsbD 0 = s.pv ∧ s.status.getLsbD 1 = s.rv ∧ s.status.getLsbD 2 = s.sv ∧
      s.status.getLsbD 3 = s.eos ∧ s.status.toNat < 2 ^ 4 := by
  unfold State.status
  cases s.pv <;> cases s.rv <;> cases s.sv <;> cases s.eos <;> decide

/-- Settles O7: every line of the reset table, the seven data registers read one by one. -/
theorem resetLeavesTheSpecsValues : Obligations.ResetLeavesTheSpecsValues := by
  intro caps
  refine ⟨rfl, rfl, rfl, fun number h2 h8 => ?_, rfl, rfl, rfl, rfl, rfl, rfl, rfl⟩
  interval_cases number <;> rfl

/-- Settles O12: both actions are `loadBytes`, whose test is `IBUF_CAP`. -/
theorem loadReplacesIbufOrIsRefused : Obligations.LoadReplacesIbufOrIsRefused := by
  intro s bytes rest hf hhost
  refine ⟨fun hfit => step_loadBytes hf hhost ?_, fun hover => step_loadBytes hf hhost ?_⟩
  · rw [loadBytes, State.takeAction_caps, if_pos hfit]; rfl
  · rw [loadBytes, State.takeAction_caps, if_neg (by simp [hover])]; rfl

/-- Settles O13, from the bits of `STATUS`. -/
theorem statusReadsTheFlags : Obligations.StatusReadsTheFlags := by
  intro s rest hf hhost
  obtain ⟨hpv, hrv, hsv, heos, hlt⟩ := status_bits s
  refine ⟨s.status, step_readRegister hf hhost, hpv, hrv, hsv, by rw [heos, eos_eq_true_iff], fun j hj => ?_⟩
  exact Nat.testBit_lt_two_pow (Nat.lt_of_lt_of_le hlt (Nat.pow_le_pow_right (by decide) hj))

/-- Settles O14, register by register. -/
theorem hostReadsOfRegisters : Obligations.HostReadsOfRegisters := by
  intro s number rest hf hhost
  refine ⟨registerAnswer s number, step_readRegister hf hhost, ?_⟩
  and_intros
  on_goal 12 =>
    rintro (rfl | h13)
    · rfl
    · obtain ⟨k, rfl⟩ := Nat.exists_eq_add_of_le' h13
      rfl
  all_goals rintro rfl; rfl

/-- Settles O15: each is a host read. -/
theorem hostReadsOfMemories : Obligations.HostReadsOfMemories := fun _ _ hf =>
  ⟨fun hhost => step_read (fun u => .bytes u.ibuf) hf hhost rfl,
   fun hhost => step_read (fun u => .bytes u.obuf) hf hhost rfl,
   fun hhost => step_read (fun u => .bits u.bs) hf hhost rfl⟩

end Sys2Proof.Machine
end

section
/-!
The command words: a word decodes to an instruction exactly when it is the word of that instruction (O1, O2), and from
this the rows of the opcode table (O3), the words that spell no command (O4) and the example words (O5).
-/

namespace Sys2Proof.Machine

open Laws.EncodingFields (opcode)

/-! ### The word of an instruction -/

/-- Every word fits 32 bits and holds its command's `OP` (30_encoding R70, R72). -/
theorem encoding_fields (i : Instr) : Laws.EncodingFields.Statement i := by
  cases i with
  | derive n => exact Laws.EncodingFields.derive n
  | encsym sym => exact Laws.EncodingFields.encsym sym
  | bsclr => exact Laws.EncodingFields.bsclr
  | pack => exact Laws.EncodingFields.pack
  | packi code len => exact Laws.EncodingFields.packi code len
  | serialize => exact Laws.EncodingFields.serialize
  | deserialize => exact Laws.EncodingFields.deserialize
  | decsym => exact Laws.EncodingFields.decsym
  | encode => exact Laws.EncodingFields.encode
  | decode => exact Laws.EncodingFields.decode

theorem encode_toNat (i : Instr) : (encode i).toNat = encodeNat i :=
  Nat.mod_eq_of_lt (encoding_fields i).1

theorem field_op_encode (i : Instr) : field (encode i) 31 28 = opcode i :=
  (encoding_fields i).2.1

theorem encode_eq_iff {i : Instr} {w : CommandWord} : encode i = w ↔ encodeNat i = w.toNat := by
  rw [← BitVec.toNat_inj, encode_toNat]

/-! ### Decoding a word that was encoded -/

/-- The decoder finds the must-be-zero bits clear and reads the operands back (30_encoding R72, R74). -/
theorem decode_encode (i : Instr) : Sys2Proof.decode (encode i) = .ok i := by
  have hop := field_op_encode i
  rw [Sys2Proof.decode, hop]
  cases i with
  | derive n =>
    have hn := n.isLt
    refine whenZero_eq_ok.mpr ⟨?_, congrArg Instr.derive (BitVec.eq_of_toNat_eq ?_)⟩
    · simp only [field, encode_toNat, encodeNat]; omega
    · simp only [field, encode_toNat, encodeNat, BitVec.toNat_ofNat]; omega
  | encsym sym =>
    have hsym := sym.isLt
    refine whenZero_eq_ok.mpr ⟨?_, congrArg Instr.encsym (BitVec.eq_of_toNat_eq ?_)⟩
    · simp only [field, encode_toNat, encodeNat]; omega
    · simp only [field, encode_toNat, encodeNat, BitVec.toNat_ofNat]; omega
  | packi code len =>
    have hcode := code.isLt
    have hlen := len.isLt
    refine whenZero_eq_ok.mpr
      ⟨?_, congrArg₂ Instr.packi (BitVec.eq_of_toNat_eq ?_) (BitVec.eq_of_toNat_eq ?_)⟩
    · simp only [field, encode_toNat, encodeNat]; omega
    · simp only [field, encode_toNat, encodeNat, BitVec.toNat_ofNat]; omega
    · simp only [field, encode_toNat, encodeNat, BitVec.toNat_ofNat]; omega
  | _ => rfl

/-! ### Encoding a word that was decoded -/

/-- A word is its `OP`, the must-be-zero bits above bit `k`, and the `k` operand bits (30_encoding R71). -/
theorem toNat_eq_fields (w : CommandWord) {k : Nat} (hk : k ≤ 27) :
    w.toNat = field w 31 28 * 2 ^ 28 + (field w 27 k * 2 ^ k + w.toNat % 2 ^ k) := by
  have hsplit : w.toNat % 2 ^ 28 = field w 27 k * 2 ^ k + w.toNat % 2 ^ k := by
    have hpow : 2 ^ 28 = 2 ^ k * 2 ^ (27 - k + 1) := by rw [← pow_add]; congr 1; omega
    rw [hpow, Nat.mod_mul, field]; ring
  have hlt := w.isLt
  rw [← hsplit]
  simp only [field]
  omega

/-- `OP`, the must-be-zero bits and the operand bits fix the word (30_encoding R71, R72). -/
theorem encode_eq_of_fields {w : CommandWord} {i : Instr} (k : Nat) (hk : k ≤ 27)
    (hop : field w 31 28 = opcode i) (hz : field w 27 k = 0)
    (hi : encodeNat i = opcode i * 2 ^ 28 + w.toNat % 2 ^ k) : encode i = w := by
  rw [encode_eq_iff, toNat_eq_fields w hk, hop, hz, hi, Nat.zero_mul, Nat.zero_add]

/-- Format Z: `OP` and nothing else (30_encoding R71). -/
theorem encode_eq_of_op {w : CommandWord} {i : Instr} (hop : field w 31 28 = opcode i) (hz : field w 27 0 = 0)
    (hi : encodeNat i = opcode i * 2 ^ 28) : encode i = w :=
  encode_eq_of_fields 0 (Nat.zero_le _) hop hz (by rw [hi, pow_zero, Nat.mod_one, Nat.add_zero])

/-- No bit of a legal word is dropped: the format's must-be-zero bits are zero and the rest are `OP` and operands
(30_encoding R71, R73). -/
theorem encode_of_decode {w : CommandWord} {i : Instr} (h : Sys2Proof.decode w = .ok i) : encode i = w := by
  rw [Sys2Proof.decode] at h
  split at h
  case h_1 hop =>
    obtain ⟨hz, rfl⟩ := whenZero_eq_ok.mp h
    refine encode_eq_of_fields 9 (by decide) hop hz ?_
    simp only [encodeNat, opcode, field, BitVec.toNat_ofNat]; omega
  case h_2 hop =>
    obtain ⟨hz, rfl⟩ := whenZero_eq_ok.mp h
    refine encode_eq_of_fields 8 (by decide) hop hz ?_
    simp only [encodeNat, opcode, field, BitVec.toNat_ofNat]; omega
  case h_5 hop =>
    obtain ⟨hz, rfl⟩ := whenZero_eq_ok.mp h
    refine encode_eq_of_fields 21 (by decide) hop hz ?_
    simp only [encodeNat, opcode, field, BitVec.toNat_ofNat]; omega
  case h_11 => cases h
  all_goals
    rename_i hop
    obtain ⟨hz, rfl⟩ := whenZero_eq_ok.mp h
    exact encode_eq_of_op hop hz rfl

theorem decode_eq_ok_iff {w : CommandWord} {i : Instr} : Sys2Proof.decode w = .ok i ↔ encode i = w :=
  ⟨encode_of_decode, fun h => h ▸ decode_encode i⟩

theorem decode_eq_ok_iff_toNat {w : CommandWord} {i : Instr} :
    Sys2Proof.decode w = .ok i ↔ encodeNat i = w.toNat :=
  decode_eq_ok_iff.trans encode_eq_iff

/-- Settles O1, instruction by instruction. -/
theorem decodeInvertsEncode : Obligations.DecodeInvertsEncode :=
  decode_encode

/-- Settles O2, arm by arm of the decoder. -/
theorem encodeInvertsDecode : Obligations.EncodeInvertsDecode :=
  fun _ _ => encode_of_decode

/-- Settles O5: each is the word of its instruction. -/
theorem exampleWordsDecode : Obligations.ExampleWordsDecode :=
  ⟨decode_encode (.derive 9), decode_encode (.encsym 7), decode_encode (.packi 0b1110 4), decode_encode .bsclr,
    decode_encode .decsym, decode_encode .encode⟩

/-! ### The opcode table -/

/-- A mask of all bits from `k` up compares the word's bits from `k` up. -/
theorem and_highMask_eq_iff (w : CommandWord) {k m : Nat} (hk : k ≤ 32) (hm : m < 2 ^ (32 - k)) :
    w &&& BitVec.allOnes 32 <<< k = BitVec.ofNat 32 (m * 2 ^ k) ↔ w.toNat / 2 ^ k = m := by
  have hpow : 2 ^ 32 = 2 ^ (32 - k) * 2 ^ k := by rw [← pow_add]; congr 1; omega
  have hw : w.toNat / 2 ^ k < 2 ^ (32 - k) := Nat.div_lt_of_lt_mul (by rw [Nat.mul_comm, ← hpow]; exact w.isLt)
  have hfit : ∀ x < 2 ^ (32 - k), x * 2 ^ k % 2 ^ 32 = x * 2 ^ k := fun x hx =>
    Nat.mod_eq_of_lt (by rw [hpow]; exact Nat.mul_lt_mul_of_pos_right hx (Nat.two_pow_pos k))
  rw [← BitVec.shiftLeft_ushiftRight, ← BitVec.toNat_inj, BitVec.toNat_shiftLeft, BitVec.toNat_ushiftRight,
    BitVec.toNat_ofNat, Nat.shiftLeft_eq, Nat.shiftRight_eq_div_pow, hfit _ hw, hfit _ hm]
  exact Nat.mul_left_inj (Nat.two_pow_pos k).ne'

theorem decodes_derive_iff (w : CommandWord) :
    (∃ n, Sys2Proof.decode w = .ok (.derive n)) ↔ w.toNat / 2 ^ 9 = 0x80000 := by
  simp only [decode_eq_ok_iff_toNat, encodeNat]
  constructor
  · rintro ⟨n, h⟩; have := n.isLt; omega
  · intro h; exact ⟨BitVec.ofNat 9 w.toNat, by rw [BitVec.toNat_ofNat]; omega⟩

theorem decodes_encsym_iff (w : CommandWord) :
    (∃ sym, Sys2Proof.decode w = .ok (.encsym sym)) ↔ w.toNat / 2 ^ 8 = 0x200000 := by
  simp only [decode_eq_ok_iff_toNat, encodeNat]
  constructor
  · rintro ⟨sym, h⟩; have := sym.isLt; omega
  · intro h; exact ⟨BitVec.ofNat 8 w.toNat, by rw [BitVec.toNat_ofNat]; omega⟩

theorem decodes_packi_iff (w : CommandWord) :
    (∃ code len, Sys2Proof.decode w = .ok (.packi code len)) ↔ w.toNat / 2 ^ 21 = 0x280 := by
  simp only [decode_eq_ok_iff_toNat, encodeNat]
  constructor
  · rintro ⟨code, len, h⟩; have := code.isLt; have := len.isLt; omega
  · intro h
    exact ⟨BitVec.ofNat 16 w.toNat, BitVec.ofNat 5 (w.toNat / 2 ^ 16), by
      rw [BitVec.toNat_ofNat, BitVec.toNat_ofNat]; omega⟩

/-- Settles O3: a row's mask covers `OP` and the must-be-zero bits, all bits in format Z. -/
theorem wordsAreThoseOfTheTable : Obligations.WordsAreThoseOfTheTable := fun w =>
  have row (i : Instr) : Sys2Proof.decode w = .ok i ↔ w = encode i := decode_eq_ok_iff.trans eq_comm
  ⟨(decodes_derive_iff w).trans (and_highMask_eq_iff w (k := 9) (by decide) (by decide)).symm,
    (decodes_encsym_iff w).trans (and_highMask_eq_iff w (k := 8) (by decide) (by decide)).symm,
    row .bsclr, row .pack,
    (decodes_packi_iff w).trans (and_highMask_eq_iff w (k := 21) (by decide) (by decide)).symm,
    row .serialize, row .deserialize, row .decsym, row .encode, row .decode⟩

/-! ### Words that spell no command -/

/-- The numbers of the words that spell no command: a reserved `OP`, or a must-be-zero bit set (30_encoding R73). -/
def Reserved (w : Nat) : Prop :=
  w / 2 ^ 28 = 0 ∨ 11 ≤ w / 2 ^ 28 ∨
    (w / 2 ^ 28 = 1 ∧ w / 2 ^ 9 % 2 ^ 19 ≠ 0) ∨
    (w / 2 ^ 28 = 2 ∧ w / 2 ^ 8 % 2 ^ 20 ≠ 0) ∨
    (w / 2 ^ 28 = 5 ∧ w / 2 ^ 21 % 2 ^ 7 ≠ 0) ∨
    (w / 2 ^ 28 ∈ [3, 4, 6, 7, 8, 9, 10] ∧ w % 2 ^ 28 ≠ 0)

theorem not_reserved_encodeNat (i : Instr) : ¬ Reserved (encodeNat i) := by
  cases i with
  | derive n =>
    have := n.isLt
    simp only [Reserved, encodeNat, List.mem_cons, List.not_mem_nil, or_false]; omega
  | encsym sym =>
    have := sym.isLt
    simp only [Reserved, encodeNat, List.mem_cons, List.not_mem_nil, or_false]; omega
  | packi code len =>
    have := code.isLt
    have := len.isLt
    simp only [Reserved, encodeNat, List.mem_cons, List.not_mem_nil, or_false]; omega
  | _ => unfold Reserved; decide

theorem decode_reserved {w : CommandWord} (h : Reserved w.toNat) : ∃ r, Sys2Proof.decode w = .error r := by
  cases hw : Sys2Proof.decode w with
  | error r => exact ⟨r, rfl⟩
  | ok i => exact absurd (decode_eq_ok_iff_toNat.mp hw ▸ h) (not_reserved_encodeNat i)

/-- Settles O4: a reserved word is the word of no instruction, so it does not decode. -/
theorem reservedWordsAreIllegal : Obligations.ReservedWordsAreIllegal := by
  intro s w rest hf hhost hw
  obtain ⟨r, hr⟩ := decode_reserved (w := w) hw
  refine ⟨takeFault (.fIllcmd w) (s.takeAction rest), ?_, takeFault_fault _ _⟩
  rw [step_cons hhost, perform, issueCommand_error hr]
  exact runCommand_raised (s := s.takeAction rest) hf rfl

end Sys2Proof.Machine
end

section
/-!
The code is complete (O27): the codeword a long enough sequence begins with is found as `DECSYM` finds it, and `DECSYM`,
which writes one symbol, shows that there is no other.
-/

namespace Sys2Proof.Machine

/-- A bit list of a symbol's length whose value is the symbol's code is its codeword. -/
theorem codeword_eq_of_value {s : State} (hp : s.ParamsOk) {sym : Byte} (hn : sym.toNat < s.prN.toNat)
    {bits : List Bool} (hl : bits.length = symbolLength s.prM.toNat s.prPT.toNat sym.toNat)
    (hv : bitsValue bits = symbolCode s.prM.toNat s.prPT.toNat sym.toNat) : s.codeword sym = bits :=
  bitsValue_inj (by rw [codeword_length, hl]) (by rw [codeword_value hp hn, hv])

/-- A symbol of the alphabet is a byte (10_state R11). -/
theorem State.ParamsOk.toNat_symbol {s : State} (hp : s.ParamsOk) {sym : Nat} (hn : sym < s.prN.toNat) :
    (BitVec.ofNat 8 sym).toNat = sym :=
  Nat.mod_eq_of_lt (by have := hp.params.n_le; omega)

/-- Bits whose first `m` are below the threshold begin with the short codeword of that value (30_encoding R61). -/
theorem short_codeword_prefix {s : State} (hp : s.ParamsOk) {bits : List Bool} (hl : s.prM.toNat ≤ bits.length)
    (hv : bitsValue (bits.take s.prM.toNat) < s.prPT.toNat) :
    ∃ sym : Byte, sym.toNat < s.prN.toNat ∧ s.codeword sym <+: bits := by
  obtain ⟨-, -, -, hptn, -⟩ := hp.params.facts
  have hn : bitsValue (bits.take s.prM.toNat) < s.prN.toNat := by omega
  have hsym := hp.toNat_symbol hn
  refine ⟨BitVec.ofNat 8 (bitsValue (bits.take s.prM.toNat)), by rwa [hsym], ?_⟩
  rw [codeword_eq_of_value hp (by rwa [hsym]) (bits := bits.take s.prM.toNat)]
  · exact List.take_prefix _ _
  · rw [hsym, symbolLength_short hv, List.length_take, Nat.min_eq_left hl]
  · rw [hsym, hp.params.code_short hv]

/-- Bits whose first `m` are at or above the threshold begin, with the bit after them, with a long codeword
(30_encoding R62). -/
theorem long_codeword_prefix {s : State} (hp : s.ParamsOk) {bits : List Bool} (hl : s.prM.toNat < bits.length)
    (hv : s.prPT.toNat ≤ bitsValue (bits.take s.prM.toNat)) :
    ∃ sym : Byte, sym.toNat < s.prN.toNat ∧ s.codeword sym <+: bits := by
  have htake : (bits.take s.prM.toNat).length = s.prM.toNat := List.length_take_of_le hl.le
  have hlt := bitsValue_lt (bits.take s.prM.toNat)
  rw [htake] at hlt
  have hvalue : bitsValue (bits.take (s.prM.toNat + 1)) =
      bitsValue (bits.take s.prM.toNat) * 2 + bits[s.prM.toNat].toNat := by
    rw [List.take_succ_eq_append_getElem hl, bitsValue_append]
    simp [bitsValue]
  have hn := hp.params.decoded_lt hlt (Bool.toNat_le bits[s.prM.toNat]) hv
  generalize hsymv : s.prPT.toNat + (bitsValue (bits.take s.prM.toNat) - s.prPT.toNat) * 2 +
    bits[s.prM.toNat].toNat = v at hn
  have hsym := hp.toNat_symbol hn
  refine ⟨BitVec.ofNat 8 v, by rwa [hsym], ?_⟩
  rw [codeword_eq_of_value hp (by rwa [hsym]) (bits := bits.take (s.prM.toNat + 1))]
  · exact List.take_prefix _ _
  · rw [hsym, symbolLength_long (by omega), List.length_take_of_le hl]
  · rw [hsym, hp.params.code_long (by omega) hn, hvalue]
    omega

/-- Bits begin with the codeword of at most one symbol: `DECSYM` of them writes that symbol (45_laws R153). -/
theorem codeword_prefix_unique {s : State} (hpv : s.pv = true) (hp : s.ParamsOk) {bits : List Bool}
    (hb : 0 < bits.length) {a b : Byte} (ha : a.toNat < s.prN.toNat) (hbn : b.toNat < s.prN.toNat)
    (hpa : s.codeword a <+: bits) (hpb : s.codeword b <+: bits) : a = b := by
  obtain ⟨resta, hresta⟩ := hpa
  obtain ⟨restb, hrestb⟩ := hpb
  have hda := decodeSymbol_codeword (s := (s.writeBs bits).writeCur 0) hpv hp ha hb hresta.symm
  have hdb := decodeSymbol_codeword (s := (s.writeBs bits).writeCur 0) hpv hp hbn hb hrestb.symm
  have hsame := congrArg (fun u : State => u.symo) (Result.done.inj (hda.symm.trans hdb))
  simpa using hsame

/-- Settles O27: the first `m` bits are a short codeword, or a long one with the bit after them. -/
theorem everyLongSequenceBeginsWithACodeword : Obligations.EveryLongSequenceBeginsWithACodeword := by
  intro s hf hinv hpv bits hlen
  have hp := (State.inv_iff_sound.mp hinv hf).params hpv
  obtain ⟨sym, hsym, hprefix⟩ : ∃ sym : Byte, sym.toNat < s.prN.toNat ∧ s.codeword sym <+: bits := by
    by_cases hv : bitsValue (bits.take s.prM.toNat) < s.prPT.toNat
    · exact short_codeword_prefix hp (by omega) hv
    · exact long_codeword_prefix hp hlen (by omega)
  exact ⟨sym, ⟨hsym, hprefix⟩, fun other hother hpre =>
    codeword_prefix_unique hpv hp (by omega) hother hsym hpre hprefix⟩

end Sys2Proof.Machine
end

section
/-!
The padding of a serialized buffer (O34): the deserialized sequence ends above the padding bits of the last byte.
-/

namespace Sys2Proof.Machine

/-- The sequence of a payload whose low `unused` bits are padding does not depend on them (30_encoding R68). -/
theorem deserialized_congr_last {unused : Nat} {v v' : Byte} (payload : List Byte)
    (h : v >>> unused = v' >>> unused) :
    deserialized unused (payload ++ [v]) = deserialized unused (payload ++ [v']) := by
  apply List.ext_getElem (by simp [deserialized_length])
  intro i hi hi'
  rw [deserialized_length] at hi hi'
  apply Option.some.inj
  rw [← List.getElem?_eq_getElem, ← List.getElem?_eq_getElem, deserialized_getElem? _ _ _ hi,
    deserialized_getElem? _ _ _ hi']
  simp only [List.length_append, List.length_singleton] at hi
  by_cases hlast : i / 8 < payload.length
  · rw [List.getElem?_append_left hlast, List.getElem?_append_left hlast]
  · have hq : i / 8 = payload.length := by omega
    have hbit : v.getLsbD (7 - i % 8) = v'.getLsbD (7 - i % 8) := by
      have := congrArg (fun x : Byte => x.getLsbD (7 - i % 8 - unused)) h
      simp only [BitVec.getLsbD_ushiftRight] at this
      rwa [show unused + (7 - i % 8 - unused) = 7 - i % 8 by omega] at this
    simp [hq, hbit]

/-- Settles O34: the two payloads have the same length and hold the same sequence. -/
theorem paddingBitsAreIgnored : Obligations.PaddingBitsAreIgnored := by
  intro s t header v v' payload hb hv h ht
  obtain ⟨hf, hdone⟩ := exec_next_done h ht
  obtain ⟨header', payload', hb', h7, -, hfit, rfl⟩ := deserialize_done hdone
  obtain ⟨rfl, rfl⟩ := List.cons.inj (hb.symm.trans hb')
  rw [deserialized_congr_last payload hv] at hfit ⊢
  have hdone' : deserialize (s.writeIbuf (header :: (payload ++ [v']))) =
      .done (((s.writeIbuf (header :: (payload ++ [v']))).writeBs
        (deserialized header.toNat (payload ++ [v']))).writeCur 0) := by
    rw [deserialize_cons rfl, if_neg (by simp; omega), if_pos (by simpa using hfit)]
  exact ⟨_, runCommand_done (s := s.writeIbuf _) hf hdone', rfl⟩

end Sys2Proof.Machine
end

section
/-!
What `DERIVE` writes (O16) and the closed forms of the parameters it leaves (O18).
-/

namespace Sys2Proof.Machine

/-- `DERIVE` of a size outside 1 to 256 raises `F_N` with that size (40_parameter_deriver R80). -/
theorem exec_derive_raised {s : State} {n : AlphabetSize} (hf : s.fault = none)
    (hn : ¬(1 ≤ n.toNat ∧ n.toNat ≤ 256)) : exec (.derive n) s = .next (takeFault (.fN n) s) :=
  runCommand_raised hf (by rw [deriveParams_eq, if_neg hn])

/-- Settles O16: `m` is `floorLog2 n`, and the word is the encoding of the instruction. -/
theorem deriveWritesTheParameters : Obligations.DeriveWritesTheParameters := by
  intro s n hf
  refine ⟨decode_encode (.derive n), fun h1 h2 => ?_, fun hn => ?_⟩
  · obtain ⟨hpow, hlt⟩ := floorLog2_spec h1
    refine ⟨floorLog2 n.toNat, hpow, hlt, ?_⟩
    rw [exec_derive hf h1 h2, State.writeParams, BitVec.ofNat_toNat, BitVec.setWidth_eq, threshold, longPrefixes]
  · exact ⟨_, exec_derive_raised hf (by omega), takeFault_fault _ _⟩

/-- The threshold in closed form, its least value and its greatest (40_parameter_deriver R83). -/
theorem Params.threshold_closed_form {n m pl pt : Nat} (h : Params n m pl pt) :
    pt = 2 ^ (m + 1) - n ∧ (pt = 1 ↔ n = 2 ^ (m + 1) - 1) ∧ (pt = n ↔ n = 2 ^ m) := by
  obtain ⟨hsum, -, -, -, hn⟩ := h.facts
  have hlt := h.lt_pow
  rw [pow_succ] at hlt ⊢
  omega

/-- `DERIVE` of a size from 1 to 256 leaves that size and the parameters 10_state R15 gives for it. -/
theorem exec_derive_params {s : State} {n : AlphabetSize} (hf : s.fault = none) (h1 : 1 ≤ n.toNat)
    (h2 : n.toNat ≤ 256) :
    ∃ t, exec (.derive n) s = .next t ∧ t.fault = none ∧ t.prN = n ∧
      Params n.toNat t.prM.toNat t.prPL.toNat t.prPT.toNat := by
  refine ⟨_, exec_derive hf h1 h2, hf, by simp, ?_⟩
  simpa using (writeParams_paramsOk s h1 h2).params

/-- Settles O18, from the relations of 10_state R15 that hold of the registers `DERIVE` leaves. -/
theorem parameterClosedForms : Obligations.ParameterClosedForms := by
  intro s n hf h1 h2
  obtain ⟨t, ht, htf, -, hp⟩ := exec_derive_params hf h1 h2
  obtain ⟨hpt, hone, hall⟩ := hp.threshold_closed_form
  exact ⟨t, ht, htf, hp.pow_le, hp.lt_pow, hp.pl_eq, hpt, hone, hall⟩

end Sys2Proof.Machine
end

section
/-!
What `ENCSYM` writes, and the faults it raises in their order (O20).
-/

namespace Sys2Proof.Machine

/-- `ENCSYM` without parameters raises `F_NOPARAM`, whatever the symbol (10_state R22). -/
theorem exec_encsym_noParams {s : State} {sym : Byte} (hf : s.fault = none) (hpv : s.pv = false) :
    exec (.encsym sym) s = .next (takeFault .fNoparam s) :=
  runCommand_raised hf (by rw [encodeSymbol_eq, if_neg (by simp [hpv])])

/-- `ENCSYM` of a symbol outside the alphabet raises `F_SYM` with that symbol (41_symbol_encoder R90). -/
theorem exec_encsym_outOfRange {s : State} {sym : Byte} (hf : s.fault = none) (hpv : s.pv = true)
    (hn : s.prN.toNat ≤ sym.toNat) : exec (.encsym sym) s = .next (takeFault (.fSym sym none) s) :=
  runCommand_raised hf (by rw [encodeSymbol_eq, if_pos hpv, if_neg (Nat.not_lt.mpr hn)])

/-- `ENCSYM` of a symbol of the alphabet writes its code and its length (41_symbol_encoder R90). -/
theorem exec_encsym {s : State} {sym : Byte} (hf : s.fault = none) (hpv : s.pv = true)
    (hn : sym.toNat < s.prN.toNat) :
    exec (.encsym sym) s =
      .next (s.writePair (symbolCode s.prM.toNat s.prPT.toNat sym.toNat)
        (symbolLength s.prM.toNat s.prPT.toNat sym.toNat)) :=
  runCommand_done hf (by rw [encodeSymbol_eq, if_pos hpv, if_pos hn])

/-- A short symbol fits `m` bits, so its mask changes nothing (41_symbol_encoder R91). -/
theorem Params.short_mask {n m pl pt : Nat} (h : Params n m pl pt) {sym : Nat} (hs : sym < pt) :
    sym % 2 ^ m = sym := by
  obtain ⟨hsum, -⟩ := h.facts
  exact Nat.mod_eq_of_lt (by omega)

/-- The base of a long symbol fits `m` bits, so its mask changes nothing (41_symbol_encoder R91). -/
theorem Params.long_mask {n m pl pt : Nat} (h : Params n m pl pt) {sym : Nat} (hs : pt ≤ sym) (hn : sym < n) :
    (pt + (sym - pt) / 2) % 2 ^ m = pt + (sym - pt) / 2 := by
  obtain ⟨hsum, -, -, -, hsize⟩ := h.facts
  exact Nat.mod_eq_of_lt (by omega)

/-- Settles O20: the two faults in their order, then the short and the long symbols. -/
theorem encsymWritesTheCodeword : Obligations.EncsymWritesTheCodeword := by
  intro s sym hf hinv
  have params (hpv : s.pv = true) := ((State.inv_iff_sound.mp hinv hf).params hpv).params
  refine ⟨decode_encode (.encsym sym), fun hpv => ?noParams, fun hpv hn => ?outOfRange, fun hpv hn hs => ?short,
    fun hpv hn hs => ?long⟩
  case noParams => exact ⟨_, exec_encsym_noParams hf hpv, takeFault_fault _ _⟩
  case outOfRange => exact ⟨_, exec_encsym_outOfRange hf hpv hn, takeFault_fault _ _⟩
  case short =>
    refine ⟨(params hpv).short_mask hs, ?_⟩
    rw [exec_encsym hf hpv hn, symbolCode, if_pos hs, symbolLength_short hs, State.writePair]
  case long =>
    refine ⟨_, _, rfl, rfl, (params hpv).long_mask hs hn, ?_⟩
    rw [exec_encsym hf hpv hn, symbolCode, if_neg (Nat.not_lt.mpr hs), symbolLength_long hs, State.writePair]

end Sys2Proof.Machine
end

section
/-!
What the packer's appends write (O28, O29, O30): the low bits of a code, most significant first, or `F_CAP`.
-/

namespace Sys2Proof.Machine

/-- `Append` of bits the capacity admits (42_bitstream_packer R100). -/
theorem append_fits {code : CodeWord} {len : Nat} {s : State} (h : admits s.caps.bs (s.blen + len) = true) :
    append code len s = .done (s.writeBs (s.bs ++ codeBits code len)) := by
  rw [append_eq, if_pos (.inr h)]

/-- `Append` past the capacity, to a sequence within it, raises `F_CAP` of `BS` (42_bitstream_packer R100). -/
theorem append_over {code : CodeWord} {len : Nat} {s : State} (hbs : admits s.caps.bs s.blen = true)
    (h : admits s.caps.bs (s.blen + len) = false) : append code len s = .raised (.fCap .bs) := by
  rw [append_eq, if_neg]
  rintro (rfl | hfit)
  · exact Bool.eq_false_iff.mp h hbs
  · exact Bool.eq_false_iff.mp h hfit

theorem packPair_of_value {s : State} (hrv : s.rv = true) : packPair s = append s.code s.len.toNat s := by
  rw [packPair_eq, if_pos hrv]

theorem packImmediate_of_length_le {code : CodeWord} {len : LengthField} (hlen : len.toNat ≤ 16) (s : State) :
    packImmediate code len s = append code len.toNat s := by
  rw [packImmediate_eq, if_neg (Nat.not_lt.mpr hlen)]

/-- Settles O28: `BSCLR` has no precondition. -/
theorem bsclrEmptiesTheSequence : Obligations.BsclrEmptiesTheSequence := fun _ hf =>
  ⟨decode_encode .bsclr, runCommand_done (body := clearBits) hf rfl⟩

/-- Settles O29: `PACK` is the append of `CODE` and `LEN`, once `RV` is set. -/
theorem packAppendsThePair : Obligations.PackAppendsThePair := by
  intro s hf hinv
  refine ⟨decode_encode .pack, fun hrv => ?noValue, fun hrv hfit => ?fits, fun hrv hover => ?full⟩
  case noValue => exact ⟨_, runCommand_raised hf (by rw [packPair_eq, if_neg (by simp [hrv])]), takeFault_fault _ _⟩
  case fits =>
    rw [← codeBits_eq_map]
    exact runCommand_done hf ((packPair_of_value hrv).trans (append_fits hfit))
  case full =>
    have hbs := (State.inv_iff_sound.mp hinv hf).bs_fits
    exact ⟨_, runCommand_raised hf ((packPair_of_value hrv).trans (append_over hbs hover)), takeFault_fault _ _⟩

/-- Settles O30: `PACKI` is the append of its operands, once `len` is at most 16. -/
theorem packiAppendsTheImmediate : Obligations.PackiAppendsTheImmediate := by
  intro s code len hf hinv
  refine ⟨decode_encode (.packi code len), fun hlen => ?tooLong, fun hlen hfit => ?fits, fun hlen hover => ?full⟩
  case tooLong => exact ⟨_, runCommand_raised hf (by rw [packImmediate_eq, if_pos hlen]), takeFault_fault _ _⟩
  case fits =>
    rw [← codeBits_eq_map]
    exact runCommand_done hf ((packImmediate_of_length_le hlen s).trans (append_fits hfit))
  case full =>
    have hbs := (State.inv_iff_sound.mp hinv hf).bs_fits
    exact ⟨_, runCommand_raised hf ((packImmediate_of_length_le hlen s).trans (append_over hbs hover)),
      takeFault_fault _ _⟩

end Sys2Proof.Machine
end

section
/-!
The buffer `SERIALIZE` writes, byte by byte (O32), and the sequence `DESERIALIZE` reads back, bit by bit (O33).
-/

namespace Sys2Proof.Machine

theorem ceilDiv8_eq (n : Nat) : ceilDiv8 n = (n + 7) / 8 := rfl

/-- The payload byte of index `q` stands after the header (30_encoding R67). -/
theorem serialized_getElem?_succ {bits : List Bool} {q : Nat} (hq : q < ceilDiv8 bits.length) :
    (serialized bits)[q + 1]? = some (payloadByte bits q) := by
  simp [serialized, hq]

/-- Bit `i` of the sequence in its place in the buffer, 0 past the end (42_bitstream_packer R104). -/
theorem serialized_bit {bits : List Bool} {i : Nat} (hi : i < 8 * ceilDiv8 bits.length) :
    ((serialized bits)[1 + i / 8]?.map fun v => v.getLsbD (7 - i % 8)) = some (bits.getD i false) := by
  rw [Nat.add_comm, serialized_getElem?_succ (by omega), Option.map_some,
    payloadByte_getLsbD bits (i / 8) (i % 8) (by omega), Nat.div_add_mod, List.getD_eq_getElem?_getD]

theorem serialize_fits {s : State} (h : admits s.caps.obuf (1 + (s.blen + 7) / 8) = true) :
    serialize s = .done (s.writeObuf (serialized s.bs)) := by
  rw [serialize_eq, if_pos (by rwa [ceilDiv8_eq, Nat.add_comm])]

theorem serialize_over {s : State} (h : admits s.caps.obuf (1 + (s.blen + 7) / 8) = false) :
    serialize s = .raised (.fCap .obuf) := by
  rw [serialize_eq, if_neg (by rw [ceilDiv8_eq, Nat.add_comm]; exact Bool.eq_false_iff.mp h)]

/-- Settles O32, from the place of each bit in the serialized buffer. -/
theorem serializeWritesTheBuffer : Obligations.SerializeWritesTheBuffer := by
  intro s hf
  refine ⟨decode_encode .serialize, fun hfit => ?fits, fun hover => ?full⟩
  case fits =>
    refine ⟨serialized s.bs, runCommand_done hf (serialize_fits hfit), ?_, rfl, fun i hi => serialized_bit hi⟩
    rw [serialized_length, ceilDiv8_eq, Nat.add_comm]
  case full => exact ⟨_, runCommand_raised hf (serialize_over hover), takeFault_fault _ _⟩

/-- A header above 7, or above 0 with no payload, raises `F_HDR` (42_bitstream_packer R105). -/
theorem deserialize_badHeader {s : State} {header : Byte} {payload : List Byte} (hb : s.ibuf = header :: payload)
    (h : 7 < header.toNat ∨ (payload = [] ∧ 0 < header.toNat)) : deserialize s = .raised (.fHdr header) := by
  rw [deserialize_cons hb, if_pos h]

/-- A well-formed buffer of a sequence longer than `BS_CAP` raises `F_CAP` of `BS` (42_bitstream_packer R105). -/
theorem deserialize_over {s : State} {header : Byte} {payload : List Byte} (hb : s.ibuf = header :: payload)
    (hh : header.toNat ≤ 7) (he : payload = [] → header.toNat = 0)
    (hbs : admits s.caps.bs (8 * payload.length - header.toNat) = false) :
    deserialize s = .raised (.fCap .bs) := by
  have hheader : ¬(7 < header.toNat ∨ (payload = [] ∧ 0 < header.toNat)) := by
    rintro (h7 | ⟨hnil, hpos⟩)
    · omega
    · exact hpos.ne' (he hnil)
  have hne : deserialized header.toNat payload ≠ [] := by
    intro hnil
    rw [← deserialized_length, hnil] at hbs
    simp at hbs
  rw [deserialize_cons hb, if_neg hheader, if_neg (by simp [hne, hbs])]

/-- Settles O33: the checks in their order, then the payload's bits. -/
theorem deserializeRebuildsTheSequence : Obligations.DeserializeRebuildsTheSequence := by
  intro s hf
  refine ⟨decode_encode .deserialize, fun hb => ?empty, fun header payload hb h => ?badHeader,
    fun header payload hb hh he hfit => ?fits, fun header payload hb hh he hover => ?full⟩
  case empty => exact ⟨_, runCommand_raised hf (deserialize_nil hb), takeFault_fault _ _⟩
  case badHeader => exact ⟨_, runCommand_raised hf (deserialize_badHeader hb h), takeFault_fault _ _⟩
  case fits =>
    have hlen := deserialized_length header.toNat payload
    exact ⟨_, runCommand_done hf (deserialize_fits hb hh he hfit), hlen,
      fun i hi => deserialized_getElem? _ _ _ (hlen ▸ hi)⟩
  case full => exact ⟨_, runCommand_raised hf (deserialize_over hb hh he hover), takeFault_fault _ _⟩

end Sys2Proof.Machine
end

section
/-!
Runs of commands the host issues: appends in a row (O31), and `SERIALIZE` and `DESERIALIZE` one after the other (O35).
-/

namespace Sys2Proof.Machine

/-- An issued command whose pseudocode ends, in a state without fault. -/
theorem step_issue {s t : State} {i : Instr} {rest : List HostAction} (hf : s.fault = none)
    (hhost : s.host = issue i :: rest) (h : commandBody i (s.takeAction rest) = .done t) : step s = .next t := by
  refine step_done (commandBody i) hf hhost (funext fun u => ?_) h
  rw [issue, perform, issueCommand_ok (decode_encode i), exec_eq]

/-- A run goes on from where its first step leads. -/
theorem exists_runSteps_succ {k : Nat} {s u : State} {P : State → Prop} (h : step s = .next u)
    (hrun : ∃ t, runSteps k u = .next t ∧ P t) : ∃ t, runSteps (k + 1) s = .next t ∧ P t := by
  rwa [runSteps_succ h]

theorem step_bsclr {s : State} {rest : List HostAction} (hf : s.fault = none) (hhost : s.host = issue .bsclr :: rest) :
    step s = .next (((s.takeAction rest).writeBs []).writeCur 0) :=
  step_issue hf hhost rfl

theorem step_packi {s : State} {code : CodeWord} {len : LengthField} {rest : List HostAction} (hf : s.fault = none)
    (hhost : s.host = issue (.packi code len) :: rest) (hlen : len.toNat ≤ 16)
    (hfit : admits s.caps.bs (s.blen + len.toNat) = true) :
    step s = .next ((s.takeAction rest).writeBs (s.bs ++ codeBits code len.toNat)) :=
  step_issue hf hhost ((packImmediate_of_length_le hlen _).trans (append_fits hfit))

theorem step_serialize {s : State} {rest : List HostAction} (hf : s.fault = none)
    (hhost : s.host = issue .serialize :: rest) (hfit : admits s.caps.obuf (1 + (s.blen + 7) / 8) = true) :
    step s = .next ((s.takeAction rest).writeObuf (serialized s.bs)) :=
  step_issue hf hhost (serialize_fits hfit)

theorem step_xfer {s : State} {rest : List HostAction} (hf : s.fault = none) (hhost : s.host = .xfer :: rest)
    (hfit : admits s.caps.ibuf s.olen = true) : step s = .next ((s.takeAction rest).writeIbuf s.obuf) :=
  step_loadBytes hf (.inr ⟨hhost, rfl⟩) (if_pos hfit)

theorem step_deserialize {s : State} {header : Byte} {payload : List Byte} {rest : List HostAction}
    (hf : s.fault = none) (hhost : s.host = issue .deserialize :: rest) (hb : s.ibuf = header :: payload)
    (hh : header.toNat ≤ 7) (he : payload = [] → header.toNat = 0)
    (hfit : admits s.caps.bs (8 * payload.length - header.toNat) = true) :
    step s = .next (((s.takeAction rest).writeBs (deserialized header.toNat payload)).writeCur 0) :=
  step_issue hf hhost (deserialize_fits hb hh he hfit)

/-! ### Appends in a row -/

/-- `PACKI` of each pair of a list appends their writings in order (42_bitstream_packer R106). -/
theorem runSteps_packi {s : State} (pairs : List (CodeWord × LengthField)) (hf : s.fault = none)
    (hhost : s.host = pairs.map fun p => issue (.packi p.1 p.2)) (hlen : ∀ p ∈ pairs, p.2.toNat ≤ 16)
    (hfit : admits s.caps.bs (s.blen + (pairs.map fun p => p.2.toNat).sum) = true) :
    ∃ t, runSteps pairs.length s = .next t ∧ t.fault = none ∧
      t.bs = s.bs ++ pairs.flatMap fun p => codeBits p.1 p.2.toNat := by
  induction pairs generalizing s with
  | nil => exact ⟨s, rfl, hf, by simp⟩
  | cons p pairs ih =>
    obtain ⟨hp, hpairs⟩ := List.forall_mem_cons.mp hlen
    rw [List.map_cons, List.sum_cons, ← Nat.add_assoc] at hfit
    refine exists_runSteps_succ (step_packi hf hhost hp (admits_mono (Nat.le_add_right _ _) hfit)) ?_
    simpa using ih (s := (s.takeAction _).writeBs (s.bs ++ codeBits p.1 p.2.toNat)) hf rfl hpairs (by simpa using hfit)

/-- Settles O31: the appends start from the empty sequence `BSCLR` leaves. -/
theorem packingKeepsTheOrder : Obligations.PackingKeepsTheOrder := by
  intro s pairs hf hlen hfit
  simp only [← codeBits_eq_map]
  refine exists_runSteps_succ (step_bsclr hf rfl) ?_
  obtain ⟨t, hrun, ht, hbs⟩ := runSteps_packi pairs (s := ((s.takeAction _).writeBs []).writeCur 0) hf rfl hlen
    (by simpa using hfit)
  rw [State.writeCur_bs, State.writeBs_bs, List.nil_append] at hbs
  refine ⟨t, hrun, ht, ?_, hbs⟩
  simp [hbs, List.length_flatMap]

/-! ### `DESERIALIZE` after `SERIALIZE` -/

/-- A serialized buffer is a header and a payload that `DESERIALIZE` accepts (30_encoding R67). -/
theorem exists_serialized_eq (bits : List Bool) :
    ∃ (header : Byte) (payload : List Byte), serialized bits = header :: payload ∧ header.toNat ≤ 7 ∧
      (payload = [] → header.toNat = 0) ∧ 8 * payload.length - header.toNat = bits.length ∧
      deserialized header.toNat payload = bits := by
  have hlt := unusedBits_lt bits.length
  have hh : (BitVec.ofNat 8 (unusedBits bits.length)).toNat = unusedBits bits.length := by
    rw [BitVec.toNat_ofNat]; omega
  refine ⟨_, _, rfl, by omega, fun hnil => ?_, ?_, ?_⟩
  · have hceil : ceilDiv8 bits.length = 0 := by simpa using hnil
    rw [ceilDiv8_eq] at hceil
    rw [hh, unusedBits]
    omega
  · rw [hh, List.length_map, List.length_range, unusedBits_eq]
  · rw [hh, deserialized_serialized]

/-! ### `SERIALIZE` after `DESERIALIZE` -/

/-- The payload with the low `unused` bits of its last byte cleared, what R107 of 42_bitstream_packer leaves of it. -/
def clearPadding (unused : Nat) (payload : List Byte) : List Byte :=
  payload.dropLast ++ payload.getLast?.toList.map fun v : Byte => (v >>> unused) <<< unused

theorem shiftRight_shiftLeft_eq_iff (v : Byte) (unused : Nat) :
    (v >>> unused) <<< unused = v ↔ ∀ j < unused, v.getLsbD j = false := by
  constructor
  · intro h j hj
    rw [← h]
    simp [hj]
  · intro h
    apply BitVec.eq_of_getLsbD_eq
    intro j hj
    by_cases hlt : j < unused
    · simp [hlt, h j hlt]
    · simp [hlt, hj, Nat.add_sub_cancel' (Nat.le_of_not_lt hlt)]

/-- Only padding bits that are set distinguish the payload from the cleared one. -/
theorem clearPadding_eq_self_iff (unused : Nat) (payload : List Byte) :
    clearPadding unused payload = payload ↔
      ∀ v, payload.getLast? = some v → ∀ j < unused, v.getLsbD j = false := by
  obtain rfl | ⟨init, v, rfl⟩ := payload.eq_nil_or_concat'
  · simp [clearPadding]
  · simp [clearPadding, shiftRight_shiftLeft_eq_iff]

/-- The deserialized sequence ends above the padding bits, so `SERIALIZE` writes 0 for those that fall into byte `q`
(42_bitstream_packer R104). -/
theorem payloadByte_deserialized (unused : Nat) {payload : List Byte} {q : Nat} (hq : q < payload.length) :
    payloadByte (deserialized unused payload) q =
      (payload[q] >>> (unused - 8 * (payload.length - 1 - q))) <<< (unused - 8 * (payload.length - 1 - q)) := by
  apply BitVec.eq_of_getLsbD_eq
  intro k hk
  obtain ⟨j, hj, rfl⟩ : ∃ j < 8, k = 7 - j := ⟨7 - k, by omega, by omega⟩
  rw [payloadByte_getLsbD _ _ _ hj]
  by_cases hin : 8 * q + j < 8 * payload.length - unused
  · have hkeep : ¬ 7 - j < unused - 8 * (payload.length - 1 - q) := by omega
    have hdiv : (8 * q + j) / 8 = q := by omega
    have hmod : (8 * q + j) % 8 = j := by omega
    rw [deserialized_getElem? _ _ _ hin, hdiv, hmod, List.getElem?_eq_getElem hq]
    simp [hkeep, hk, Nat.add_sub_cancel' (Nat.le_of_not_lt hkeep)]
  · have hclear : 7 - j < unused - 8 * (payload.length - 1 - q) := by omega
    rw [List.getElem?_eq_none (by rw [deserialized_length]; omega)]
    simp [hclear]

/-- Only the last byte has padding bits (42_bitstream_packer R104). -/
theorem map_payloadByte_deserialized {unused : Nat} (hu : unused ≤ 7) (payload : List Byte) :
    (List.range payload.length).map (payloadByte (deserialized unused payload)) = clearPadding unused payload := by
  obtain rfl | ⟨init, v, rfl⟩ := payload.eq_nil_or_concat'
  · rfl
  · rw [clearPadding, List.dropLast_concat, List.getLast?_concat, List.length_append, List.length_singleton,
      List.range_succ, List.map_append]
    congr 1
    · refine List.ext_getElem (by simp) fun q hq _ => ?_
      have hlt : q < init.length := by simpa using hq
      have hnone : unused - 8 * (init.length - q) = 0 := by omega
      simp [payloadByte_deserialized, hlt, Nat.lt_succ_of_lt hlt, hnone]
    · simp [payloadByte_deserialized]

/-- `SERIALIZE` of the sequence of a well-formed buffer writes the buffer with its padding bits cleared
(42_bitstream_packer R107). -/
theorem serialized_deserialized {header : Byte} {payload : List Byte} (hh : header.toNat ≤ 7)
    (he : payload = [] → header.toNat = 0) :
    serialized (deserialized header.toNat payload) = header :: clearPadding header.toNat payload := by
  have hpad : header.toNat ≤ 8 * payload.length := by
    cases payload with
    | nil => simp [he rfl]
    | cons v rest => rw [List.length_cons]; omega
  have hunused : unusedBits (8 * payload.length - header.toNat) = header.toNat := by unfold unusedBits; omega
  have hceil : ceilDiv8 (8 * payload.length - header.toNat) = payload.length := by rw [ceilDiv8_eq]; omega
  rw [serialized, deserialized_length, hunused, hceil, map_payloadByte_deserialized hh, BitVec.ofNat_toNat,
    BitVec.setWidth_eq]

/-- Settles O35: the sequence of a serialized buffer is the one serialized, and the buffer of a deserialized sequence
is the one read, its padding cleared. -/
theorem serializeAndDeserializeAreInverse : Obligations.SerializeAndDeserializeAreInverse := by
  refine ⟨fun s hf hbs hobuf hibuf => ?_, fun s header payload hf hb hh he hbs hobuf => ?_⟩
  · obtain ⟨header, payload, hser, hh, he, hlen, hdes⟩ := exists_serialized_eq s.bs
    have hload : admits s.caps.ibuf (serialized s.bs).length = true := by
      rwa [serialized_length, ceilDiv8_eq, Nat.add_comm]
    refine exists_runSteps_succ (step_serialize hf rfl hobuf) (exists_runSteps_succ (step_xfer hf rfl hload)
      (exists_runSteps_succ (step_deserialize hf rfl hser hh he ?_) ⟨_, rfl, hf, hdes, rfl⟩))
    rw [hlen]; exact hbs
  · have hser := serialized_deserialized hh he
    refine exists_runSteps_succ (step_deserialize hf rfl hb hh he hbs)
      (exists_runSteps_succ (step_serialize hf rfl ?_) ⟨_, rfl, hf, hser, (Eq.congr_left hser).trans ?_⟩)
    · exact admits_mono (by simp [hb, deserialized_length]; omega) hobuf
    · rw [hb, List.cons_inj_right, clearPadding_eq_self_iff]

end Sys2Proof.Machine
end

section
/-!
What `DECSYM` reads and writes, and the faults it raises in their order (O36, O37, O40).
-/

namespace Sys2Proof.Machine

/-- Settles O36, from the bits of the value of the `w` bits read. -/
theorem readBitsIsMsbFirst : Obligations.ReadBitsIsMsbFirst := by
  intro bits pos w hw
  refine ⟨readBits_lt bits pos w, fun j hj => ?_⟩
  have hlen : ((bits.drop pos).take w).length = w := by
    rw [List.length_take, List.length_drop]; omega
  have hbit := bitsValue_testBit ((bits.drop pos).take w) j (hj.trans_eq hlen.symm)
  simp only [hlen, List.getElem_take, List.getElem_drop] at hbit
  rw [readBits, hbit, List.getD_eq_getElem _ _ (by omega)]

/-- `DECSYM` without parameters raises `F_NOPARAM` (10_state R22). -/
theorem decodeSymbol_noParams {s : State} (hpv : s.pv = false) : decodeSymbol s = .raised .fNoparam := by
  rw [decodeSymbol, requireParams, if_neg (by simp [hpv])]

/-- `DECSYM` at the end of the sequence raises `F_EOS` (43_symbol_decoder R120). -/
theorem decodeSymbol_atEnd {s : State} (hpv : s.pv = true) (hc : s.cur = s.bs.length) :
    decodeSymbol s = .raised .fEos := by
  rw [decodeSymbol, requireParams, if_pos hpv, if_pos hc]

/-- `DECSYM` before the end of the sequence raises `F_TRUNC` whenever it does not read a whole codeword
(43_symbol_decoder R123). -/
theorem decodeSymbol_truncated {s : State} (hpv : s.pv = true) (hc : s.cur < s.bs.length)
    (h : ∀ t, decodeSymbol s ≠ .done t) : decodeSymbol s = .raised (.fTrunc s.cur) := by
  cases hres : decodeSymbol s with
  | done t => exact absurd hres (h t)
  | raised c => rw [decodeSymbol_raised hpv hc hres]
  | endless => exact absurd hres (decodeSymbol_not_endless s)

/-- A long codeword is not whole when no bit follows its prefix (43_symbol_decoder R123). -/
theorem decodeSymbol_ne_done_of_prefix_only {s : State} (hlen : s.bs.length - s.cur = s.prM.toNat)
    (hv : s.prPT.toNat ≤ readBits s.bs s.cur s.prM.toNat) (t : State) : decodeSymbol s ≠ .done t := by
  intro h
  obtain ⟨-, -, -, ⟨hshort, -⟩ | ⟨-, b, hb, -⟩⟩ := decodeSymbol_done h
  · omega
  · obtain ⟨hlt, -⟩ := List.getElem?_eq_some_iff.mp hb
    omega

/-- Settles O37: the faults in the order of the checks, then the short and the long class. -/
theorem decsymDecodesOneCodeword : Obligations.DecsymDecodesOneCodeword := by
  intro s hf _
  unfold State.blen
  refine ⟨decode_encode .decsym, fun hpv => ?noParams, fun hpv hc => ?atEnd, fun hpv hc hlen => ?fewBits,
    fun hpv hc hlen hv => ?short, fun hpv hc hlen hv => ?prefixOnly, fun hpv hc hlen hv => ?long⟩
  case noParams => exact ⟨_, runCommand_raised hf (decodeSymbol_noParams hpv), takeFault_fault _ _⟩
  case atEnd => exact ⟨_, runCommand_raised hf (decodeSymbol_atEnd hpv hc), takeFault_fault _ _⟩
  case fewBits =>
    have htrunc := decodeSymbol_truncated hpv hc fun t ht => by
      obtain ⟨-, -, henough, -⟩ := decodeSymbol_done ht
      omega
    exact ⟨_, runCommand_raised hf htrunc, takeFault_fault _ _⟩
  case short => exact runCommand_done hf (decodeSymbol_short hpv hc.ne hlen hv)
  case prefixOnly =>
    have htrunc := decodeSymbol_truncated hpv hc (decodeSymbol_ne_done_of_prefix_only hlen hv)
    exact ⟨_, runCommand_raised hf htrunc, takeFault_fault _ _⟩
  case long =>
    have hlt : s.cur + s.prM.toNat < s.bs.length := by omega
    rw [List.getD_eq_getElem _ _ hlt]
    exact runCommand_done hf (decodeSymbol_long hpv hc.ne (by omega) hv (List.getElem?_eq_getElem hlt))

/-- Settles O40: with `PR.N = 1` a codeword is no bits, whose value 0 is below the threshold 1. -/
theorem oneSymbolDecsymStandsStill : Obligations.OneSymbolDecsymStandsStill := by
  intro s hf hinv hpv hn (hc : s.cur < s.bs.length)
  have hpar := ((State.inv_iff_sound.mp hinv hf).params hpv).params
  have hm : s.prM.toNat = 0 := hpar.m_eq_zero.mpr hn
  obtain ⟨-, -, hpt, -, -⟩ := hpar.facts
  have hv : readBits s.bs s.cur s.prM.toNat = 0 := by rw [hm]; rfl
  have hdone := decodeSymbol_short hpv hc.ne (by omega) (by omega)
  rw [hv, hm] at hdone
  exact runCommand_done hf hdone

end Sys2Proof.Machine
end

section
/-!
The loop of `DECODE` on a sequence that begins with codewords (O49): it goes past them when `OBUF` holds their symbols,
and `DECSYM` of bits that begin with no codeword is truncated.
-/

namespace Sys2Proof.Machine

/-! ### Bits that begin with no codeword -/

/-- A `DECSYM` that ends has read the codeword of a symbol of the alphabet. -/
theorem codeword_prefix_of_decodeSymbol_done {s t : State} (hp : s.ParamsOk) (h : decodeSymbol s = .done t) :
    ∃ sym : Byte, sym.toNat < s.prN.toNat ∧ s.codeword sym <+: s.bs.drop s.cur := by
  obtain ⟨-, -, hm, ⟨hv, -⟩ | ⟨hv, b, hb, -⟩⟩ := decodeSymbol_done h
  · exact short_codeword_prefix hp (by rwa [List.length_drop]) hv
  · obtain ⟨hlt, -⟩ := List.getElem?_eq_some_iff.mp hb
    exact long_codeword_prefix hp (by rw [List.length_drop]; omega) hv

/-! ### The loop past codewords -/

/-- What one iteration leaves, in the terms of `afterDecode`. -/
theorem afterDecode_cons (sym : Byte) (rest : List Byte) (s : State) :
    afterDecode (sym :: rest) s =
      afterDecode rest ((s.writeSymbol sym.toNat (symbolLength s.prM.toNat s.prPT.toNat sym.toNat)).writeObuf
        (s.obuf ++ [sym])) := by
  have hlen := codeword_length s sym
  simp only [afterDecode, State.writeObuf, State.writeSymbol, State.mk.injEq, ArchState.mk.injEq, true_and, and_true]
  refine ⟨?_, ?_, ?_, ?_⟩
  · cases rest <;> simp [List.getLast?_cons]
  · rw [List.flatMap_cons, List.length_append, hlen, Nat.add_assoc]
    rfl
  · simp
  · simp

theorem one_le_codeword_length {s : State} (hm : 1 ≤ s.prM.toNat) (sym : Byte) : 1 ≤ (s.codeword sym).length := by
  rw [codeword_length, symbolLength]
  split <;> omega

/-- One iteration of the loop on bits that begin with a codeword: its symbol is appended to `OBUF`
(44_composite_operations R131). -/
theorem decodeLoop_codeword {fuel : Nat} {s : State} {sym : Byte} {rest : List Bool} (hpv : s.pv = true)
    (hp : s.ParamsOk) (hm : 1 ≤ s.prM.toNat) (hn : sym.toNat < s.prN.toNat)
    (hb : s.bs.drop s.cur = s.codeword sym ++ rest) :
    decodeLoop (fuel + 1) s =
      (obufAppend sym (s.writeSymbol sym.toNat (symbolLength s.prM.toNat s.prPT.toNat sym.toNat))).andThen
        (decodeLoop fuel) := by
  have hpos := one_le_codeword_length hm sym
  have hlen := congrArg List.length hb
  rw [List.length_drop, List.length_append] at hlen
  have hc : s.cur < s.bs.length := by omega
  rw [decodeLoop, if_pos hc, decodeSymbol_codeword hpv hp hn hc hb, Result.done_andThen, State.writeSymbol_symo,
    BitVec.ofNat_toNat, BitVec.setWidth_eq]

/-- The loop on bits that begin with codewords: it goes on after them when `OBUF` holds their symbols, and else raises
`F_CAP` of `OBUF` (44_composite_operations R131, 60_exceptions R162). -/
theorem decodeLoop_codewords_append (syms : List Byte) {tail : List Bool} (fuel : Nat) {s : State} (hpv : s.pv = true)
    (hp : s.ParamsOk) (hm : 1 ≤ s.prM.toNat) (hn : ∀ sym ∈ syms, sym.toNat < s.prN.toNat)
    (hb : s.bs.drop s.cur = syms.flatMap s.codeword ++ tail) (hfit : admits s.caps.obuf s.obuf.length = true) :
    decodeLoop (syms.length + fuel) s =
      if admits s.caps.obuf (s.obuf.length + syms.length) = true then decodeLoop fuel (afterDecode syms s)
      else .raised (.fCap .obuf) := by
  induction syms generalizing s with
  | nil => simp [afterDecode, hfit]
  | cons sym rest ih =>
    rw [List.flatMap_cons, List.append_assoc] at hb
    rw [List.length_cons, Nat.add_right_comm, decodeLoop_codeword hpv hp hm (hn sym List.mem_cons_self) hb,
      obufAppend_eq]
    by_cases hroom : admits s.caps.obuf (s.obuf.length + 1) = true
    · rw [State.writeSymbol_caps, State.writeSymbol_obuf, if_pos hroom, Result.done_andThen, afterDecode_cons]
      have hdrop : s.bs.drop (s.cur + symbolLength s.prM.toNat s.prPT.toNat sym.toNat) =
          rest.flatMap s.codeword ++ tail := by
        rw [← codeword_length, ← List.drop_drop, hb, List.drop_left]
      refine Eq.trans (ih (s := (s.writeSymbol sym.toNat _).writeObuf (s.obuf ++ [sym])) hpv hp hm
        (fun x hx => hn x (List.mem_cons_of_mem _ hx)) hdrop (by simpa using hroom)) ?_
      simp [Nat.add_assoc, Nat.add_comm 1]
    · have hover : ¬ admits s.caps.obuf (s.obuf.length + (rest.length + 1)) = true :=
        fun h => hroom (admits_mono (by omega) h)
      rw [State.writeSymbol_caps, State.writeSymbol_obuf, if_neg hroom, if_neg hover, Result.raised_andThen]

/-! ### `DECODE` of codewords and a tail -/

/-- The state the loop of `DECODE` starts in, with these bits deserialized (44_composite_operations R131). -/
def State.loopStart (s : State) (bits : List Bool) : State :=
  ((s.writeBs bits).writeCur 0).writeObuf []

/-- The loop past the codewords at the head of the sequence has the cursor at their end. -/
theorem afterDecode_loopStart_cur (s : State) (syms : List Byte) (bits : List Bool) :
    (afterDecode syms (s.loopStart bits)).cur = (syms.flatMap s.codeword).length :=
  Nat.zero_add _

theorem afterDecode_loopStart_bs (s : State) (syms : List Byte) (bits : List Bool) :
    (afterDecode syms (s.loopStart bits)).bs = bits := rfl

theorem length_le_length_flatMap_codeword {s : State} (hm : 1 ≤ s.prM.toNat) (syms : List Byte) :
    syms.length ≤ (syms.flatMap s.codeword).length := by
  induction syms with
  | nil => simp
  | cons sym rest ih =>
    have hsym := one_le_codeword_length hm sym
    rw [List.flatMap_cons, List.length_append, List.length_cons]
    omega

/-- `DECODE` of a non-empty sequence that begins with codewords: `F_CAP` when `OBUF` does not hold their symbols, else
the loop goes on after them, with a turn left for every bit there (44_composite_operations R131). -/
theorem decodeBuffer_codewords_append {s : State} {header : Byte} {payload syms : List Byte} {tail : List Bool}
    (hpv : s.pv = true) (hp : s.ParamsOk) (hm : 1 ≤ s.prM.toNat) (hb : s.ibuf = header :: payload)
    (hh : header.toNat ≤ 7) (hn : ∀ sym ∈ syms, sym.toNat < s.prN.toNat)
    (hbits : deserialized header.toNat payload = syms.flatMap s.codeword ++ tail)
    (hne : deserialized header.toNat payload ≠ [])
    (hfit : admits s.caps.bs (8 * payload.length - header.toNat) = true) :
    ∃ fuel, tail.length ≤ fuel ∧
      decodeBuffer s =
        if admits s.caps.obuf syms.length = true then
          decodeLoop fuel (afterDecode syms (s.loopStart (syms.flatMap s.codeword ++ tail)))
        else .raised (.fCap .obuf) := by
  have hpayload : payload ≠ [] := by
    rintro rfl
    exact hne (by simp [deserialized, bytesBits])
  have hdes := deserialize_fits hb hh (fun h => absurd h hpayload) hfit
  rw [hbits] at hdes
  have hturns : syms.length + tail.length ≤
      decodeFuel ((s.writeBs (syms.flatMap s.codeword ++ tail)).writeCur 0) := by
    have hsyms := length_le_length_flatMap_codeword hm syms
    simp only [decodeFuel, State.writeCur_bs, State.writeBs_bs, State.blen, List.length_append]
    omega
  obtain ⟨k, hk⟩ := Nat.exists_eq_add_of_le hturns
  refine ⟨tail.length + k, Nat.le_add_right _ _, ?_⟩
  rw [decodeBuffer_of_deserialize hpv hdes, hk, Nat.add_assoc]
  have hloop := decodeLoop_codewords_append syms (tail := tail) (tail.length + k)
    (s := s.loopStart (syms.flatMap s.codeword ++ tail)) hpv hp hm hn rfl (admits_zero _)
  rwa [State.loopStart, State.writeObuf_obuf, List.length_nil, Nat.zero_add] at hloop

/-- The loop at bits that are some and begin with no codeword raises `F_TRUNC` (43_symbol_decoder R123). -/
theorem decodeLoop_truncated {fuel : Nat} {s : State} (hpv : s.pv = true) (hp : s.ParamsOk) (hc : s.cur < s.bs.length)
    (hfuel : 0 < fuel) (h : ∀ sym : Byte, sym.toNat < s.prN.toNat → ¬ s.codeword sym <+: s.bs.drop s.cur) :
    decodeLoop fuel s = .raised (.fTrunc s.cur) := by
  have htrunc := decodeSymbol_truncated hpv hc fun t ht => by
    obtain ⟨sym, hsym, hprefix⟩ := codeword_prefix_of_decodeSymbol_done hp ht
    exact h sym hsym hprefix
  cases fuel with
  | zero => omega
  | succ fuel => rw [decodeLoop, if_pos hc, htrunc, Result.raised_andThen]

/-- The loop past the codewords at the head of a sequence, at a tail that begins with none (43_symbol_decoder R123). -/
theorem decodeLoop_afterDecode_truncated {fuel : Nat} {s : State} {syms : List Byte} {tail : List Bool}
    (hpv : s.pv = true) (hp : s.ParamsOk) (htail : tail ≠ []) (hfuel : tail.length ≤ fuel)
    (hnone : ∀ sym : Byte, sym.toNat < s.prN.toNat → ¬ s.codeword sym <+: tail) :
    decodeLoop fuel (afterDecode syms (s.loopStart (syms.flatMap s.codeword ++ tail))) =
      .raised (.fTrunc (syms.flatMap s.codeword).length) := by
  have hpos := List.length_pos_iff.mpr htail
  have hcur := afterDecode_loopStart_cur s syms (syms.flatMap s.codeword ++ tail)
  have hbs := afterDecode_loopStart_bs s syms (syms.flatMap s.codeword ++ tail)
  rw [← hcur]
  refine decodeLoop_truncated hpv hp ?_ (by omega) ?_
  · rw [hcur, hbs, List.length_append]; omega
  · rw [hcur, hbs, List.drop_left]; exact hnone

/-- Settles O49: the loop past the codewords at the head, then at the tail. -/
theorem decodeFaultsInItsLoop : Obligations.DecodeFaultsInItsLoop := by
  intro s header payload syms tail hf hinv hpv hm hb hh hn hbits hfit
  have hp := (State.inv_iff_sound.mp hinv hf).params hpv
  have hbody (hne : syms.flatMap s.codeword ++ tail ≠ []) :=
    decodeBuffer_codewords_append hpv hp hm hb hh hn hbits (hbits.trans_ne hne) hfit
  refine ⟨fun hobuf htail hnone => ?truncated, fun hover => ?full⟩
  case truncated =>
    obtain ⟨fuel, hfuel, hdec⟩ := hbody (List.append_ne_nil_of_right_ne_nil _ htail)
    rw [if_pos hobuf, decodeLoop_afterDecode_truncated hpv hp htail hfuel hnone] at hdec
    exact ⟨_, runCommand_raised hf hdec, takeFault_fault _ _⟩
  case full =>
    have hsyms : syms ≠ [] := by
      rintro rfl
      simp at hover
    have hlen := length_le_length_flatMap_codeword hm syms
    have hpos := List.length_pos_iff.mpr hsyms
    obtain ⟨fuel, -, hdec⟩ := hbody (List.append_ne_nil_of_left_ne_nil (List.length_pos_iff.mp (by omega)) _)
    rw [if_neg (by simp [hover])] at hdec
    exact ⟨_, runCommand_raised hf hdec, takeFault_fault _ _⟩

end Sys2Proof.Machine
end

section
/-!
The end state of `ENCODE` and where it faults (O41, O42): its loop past the symbols of the alphabet at the head of the
input, at a symbol out of range, and at a codeword that `BS` does not hold.
-/

namespace Sys2Proof.Machine

/-! ### `ENCODE` that completes -/

/-- The end state of `ENCODE`, piece by piece (44_composite_operations R130): the pair is the last symbol's, or as it
was for an empty input. -/
theorem afterEncode_from_start (s : State) (syms bytes : List Byte) :
    (afterEncode syms ((s.writeBs []).writeCur 0)).writeObuf bytes =
      { s with
        bs := syms.flatMap s.codeword
        cur := 0
        code := (syms.getLast?.map fun sym =>
          BitVec.ofNat 16 (symbolCode s.prM.toNat s.prPT.toNat sym.toNat)).getD s.code
        len := (syms.getLast?.map fun sym =>
          BitVec.ofNat 8 (symbolLength s.prM.toNat s.prPT.toNat sym.toNat)).getD s.len
        rv := s.rv || decide (syms ≠ [])
        obuf := bytes } := by
  obtain rfl | ⟨init, sym, rfl⟩ := syms.eq_nil_or_concat'
  · simp [afterEncode, State.writeObuf, State.writeCur, State.writeBs]
  · have hne : (s.rv || decide (init ++ [sym] ≠ [])) = true := by simp
    rw [afterEncode, List.getLast?_concat, hne]
    rfl

/-- Settles O41: the loop appends every codeword to the empty sequence, and the buffer is the serialized sequence. -/
theorem encodeEndState : Obligations.EncodeEndState := by
  intro s hf hinv hpv hn hbs hobuf
  have hp := (State.inv_iff_sound.mp hinv hf).params hpv
  rw [← afterEncode_from_start]
  exact runCommand_done hf (encodeBuffer_fits hpv hp hn hbs (by rwa [ceilDiv8_eq, Nat.add_comm]))

/-! ### `ENCODE` that faults -/

/-- `ENCSYM` of a symbol of the alphabet completes (41_symbol_encoder R90). -/
theorem encodeSymbol_of_lt {index : Option Nat} {sym : Byte} {s : State} (hpv : s.pv = true)
    (hsym : sym.toNat < s.prN.toNat) :
    encodeSymbol index sym s =
      .done (s.writePair (symbolCode s.prM.toNat s.prPT.toNat sym.toNat)
        (symbolLength s.prM.toNat s.prPT.toNat sym.toNat)) := by
  rw [encodeSymbol_eq, if_pos hpv, if_pos hsym]

theorem encodeLoop_append (good rest : List Byte) (i : Nat) (s : State) :
    encodeLoop (good ++ rest) i s = (encodeLoop good i s).andThen (encodeLoop rest (i + good.length)) := by
  induction good generalizing i s with
  | nil => rfl
  | cons sym good ih =>
    have hnext (t : State) : (packPair t).andThen (encodeLoop (good ++ rest) (i + 1)) =
        ((packPair t).andThen (encodeLoop good (i + 1))).andThen (encodeLoop rest (i + (good.length + 1))) := by
      rw [Result.andThen_assoc]
      exact congrArg _ (funext fun u => by rw [ih, Nat.add_assoc, Nat.add_comm 1])
    rw [List.cons_append, encodeLoop, encodeLoop, Result.andThen_assoc, List.length_cons]
    exact congrArg _ (funext hnext)

/-- `ENCODE` at a symbol out of range raises `F_SYM` with its index (60_exceptions R162). -/
theorem encodeLoop_outOfRange {bad : Byte} {rest : List Byte} {i : Nat} {s : State} (hpv : s.pv = true)
    (hbad : s.prN.toNat ≤ bad.toNat) : encodeLoop (bad :: rest) i s = .raised (.fSym bad (some i)) := by
  rw [encodeLoop, encodeSymbol_eq, if_pos hpv, if_neg (Nat.not_lt.mpr hbad), Result.raised_andThen]

/-- `ENCODE` at a codeword that `BS` does not hold raises `F_CAP` of `BS` (60_exceptions R162). -/
theorem encodeLoop_symbol_over {sym : Byte} {i : Nat} {s : State} (hpv : s.pv = true) (hp : s.ParamsOk)
    (hsym : sym.toNat < s.prN.toNat) (hbs : admits s.caps.bs s.bs.length = true)
    (hover : admits s.caps.bs (s.bs.length + (s.codeword sym).length) = false) :
    encodeLoop [sym] i s = .raised (.fCap .bs) := by
  have hlen := hp.params.length_le hsym
  rw [codeword_length] at hover
  rw [encodeLoop, encodeSymbol_of_lt hpv hsym, Result.done_andThen, packPair_of_value (State.writePair_rv ..),
    append_over, Result.raised_andThen]
  · exact hbs
  · rwa [State.writePair_len, BitVec.toNat_ofNat, Nat.mod_eq_of_lt (by omega)]

/-- The loop of `ENCODE` on symbols of the alphabet whose codewords `BS` does not hold. -/
theorem encodeLoop_over (syms : List Byte) (i : Nat) (s : State) (hpv : s.pv = true) (hp : s.ParamsOk)
    (hn : ∀ sym ∈ syms, sym.toNat < s.prN.toNat) (hbs : admits s.caps.bs s.bs.length = true)
    (hover : admits s.caps.bs (s.bs.length + (syms.flatMap s.codeword).length) = false) :
    encodeLoop syms i s = .raised (.fCap .bs) := by
  induction syms generalizing i s with
  | nil => simp [hbs] at hover
  | cons sym rest ih =>
    obtain ⟨hsym, hrest⟩ := List.forall_mem_cons.mp hn
    rw [← List.singleton_append, encodeLoop_append]
    cases hone : admits s.caps.bs (s.bs.length + (s.codeword sym).length) with
    | false => rw [encodeLoop_symbol_over hpv hp hsym hbs hone, Result.raised_andThen]
    | true =>
      rw [encodeLoop_eq [sym] i s hpv hp (by simpa using hsym) (by simpa using hone), Result.done_andThen]
      have hbits : (afterEncode [sym] s).bs = s.bs ++ s.codeword sym := by simp
      rw [List.flatMap_cons, List.length_append, ← Nat.add_assoc, ← List.length_append, ← hbits] at hover
      exact ih (i + 1) (afterEncode [sym] s) hpv hp hrest (by simpa using hone) hover

/-- `ENCODE` without parameters raises `F_NOPARAM`, for an empty input too (60_exceptions R165). -/
theorem encodeBuffer_noParams {s : State} (hpv : s.pv = false) : encodeBuffer s = .raised .fNoparam := by
  rw [encodeBuffer, requireParams, if_neg (by simp [hpv])]

/-- `ENCODE`, with the parameters set, is its loop from the empty sequence and then `SERIALIZE`. -/
theorem encodeBuffer_eq {s : State} (hpv : s.pv = true) :
    encodeBuffer s = (encodeLoop s.ibuf 0 ((s.writeBs []).writeCur 0)).andThen serialize := by
  rw [encodeBuffer, requireParams, if_pos hpv]
  rfl

/-- The loop of `ENCODE` past the symbols of the alphabet at the head of the input, or where `BS` is full. -/
theorem encodeLoop_start_append {s : State} {good rest : List Byte} (hpv : s.pv = true) (hp : s.ParamsOk)
    (hn : ∀ sym ∈ good, sym.toNat < s.prN.toNat) :
    encodeLoop (good ++ rest) 0 ((s.writeBs []).writeCur 0) =
      if admits s.caps.bs (good.flatMap s.codeword).length = true then
        encodeLoop rest good.length (afterEncode good ((s.writeBs []).writeCur 0))
      else .raised (.fCap .bs) := by
  rw [encodeLoop_append, Nat.zero_add]
  split
  case isTrue hfit =>
    rw [encodeLoop_eq good 0 ((s.writeBs []).writeCur 0) hpv hp hn ((Nat.zero_add _).symm ▸ hfit),
      Result.done_andThen]
  case isFalse hover =>
    rw [encodeLoop_over good 0 ((s.writeBs []).writeCur 0) hpv hp hn (admits_zero _)
      ((Nat.zero_add _).symm ▸ Bool.eq_false_iff.mpr hover), Result.raised_andThen]

@[simp] theorem afterEncode_pv (syms : List Byte) (s : State) : (afterEncode syms s).pv = s.pv := by
  unfold afterEncode; split <;> rfl

@[simp] theorem afterEncode_prN (syms : List Byte) (s : State) : (afterEncode syms s).prN = s.prN := by
  unfold afterEncode; split <;> rfl

/-- Settles O42: the first primitive to fault reports. -/
theorem encodeFaults : Obligations.EncodeFaults := by
  intro s hf hinv
  have hp := (State.inv_iff_sound.mp hinv hf).params
  refine ⟨fun hpv => ?noParams, fun good bad rest hpv hb hn hbad hfit => ?outOfRange,
    fun good rest hpv hb hn hover => ?bsFull, fun hpv hn hfit hover => ?obufFull⟩
  case noParams => exact ⟨_, runCommand_raised hf (encodeBuffer_noParams hpv), takeFault_fault _ _⟩
  case outOfRange =>
    have hbody : encodeBuffer s = .raised (.fSym bad (some good.length)) := by
      rw [encodeBuffer_eq hpv, hb, encodeLoop_start_append hpv (hp hpv) hn, if_pos hfit,
        encodeLoop_outOfRange (by simpa using hpv) (by simpa using hbad), Result.raised_andThen]
    exact ⟨_, runCommand_raised hf hbody, takeFault_fault _ _⟩
  case bsFull =>
    have hbody : encodeBuffer s = .raised (.fCap .bs) := by
      rw [encodeBuffer_eq hpv, hb, encodeLoop_start_append hpv (hp hpv) hn, if_neg (Bool.eq_false_iff.mp hover),
        Result.raised_andThen]
    exact ⟨_, runCommand_raised hf hbody, takeFault_fault _ _⟩
  case obufFull =>
    have hloop := encodeLoop_start_append (rest := []) hpv (hp hpv) hn
    rw [List.append_nil, if_pos hfit, encodeLoop] at hloop
    have hbits : (afterEncode s.ibuf ((s.writeBs []).writeCur 0)).bs = s.ibuf.flatMap s.codeword := by
      rw [afterEncode_bs]; rfl
    have hbody : encodeBuffer s = .raised (.fCap .obuf) := by
      rw [encodeBuffer_eq hpv, hloop, Result.done_andThen, serialize_over]
      rw [State.blen, hbits, afterEncode_caps]
      exact hover
    exact ⟨_, runCommand_raised hf hbody, takeFault_fault _ _⟩

end Sys2Proof.Machine
end

section
/-!
`ENCODE` and `DECODE` as the sequences of primitive commands their pseudocode names (O43, O50), and what the `DECSYM`s
of a `DECODE` that ends decode (O47).
-/

namespace Sys2Proof.Machine

/-! ### Issuing the commands of a pseudocode -/

/-- The host's list and the answer reach no command (10_state R32). -/
theorem commandBody_takeAction {i : Instr} {s t : State} (h : commandBody i s = .done t) (rest : List HostAction) :
    commandBody i (s.takeAction rest) = .done (t.takeAction rest) := by
  have henv := (commandBody_writes h).toEnvironment
  have hbeside (u : State) (hu : u.toEnvironment = s.toEnvironment) :
      u.beside ⟨s.caps, rest, none, s.draws⟩ = u.takeAction rest := by
    rw [State.beside, State.takeAction, ← hu]
  rw [← hbeside s rfl, ← hbeside t henv, commandBody_beside, h]
  rfl

theorem Writes.fault {i : Instr} {s t : State} (h : Writes s i t) : t.fault = s.fault := by
  cases h <;> rfl

theorem commandBody_fault {i : Instr} {s t : State} (h : commandBody i s = .done t) (hf : s.fault = none) :
    t.fault = none :=
  (commandBody_writes h).fault.trans hf

/-- A run whose first action issues a command that ends without fault. -/
theorem runSteps_issue {i : Instr} {s t : State} (hf : s.fault = none) (h : commandBody i s = .done t) (k : Nat)
    (rest : List HostAction) : runSteps (k + 1) (s.takeAction (issue i :: rest)) = runSteps k (t.takeAction rest) :=
  runSteps_succ (step_issue (s := s.takeAction (issue i :: rest)) hf rfl (commandBody_takeAction h rest))

/-! ### `ENCODE` -/

/-- What the loop of `ENCODE` issues for these symbols (44_composite_operations R130). -/
def encodeActions (syms : List Byte) : List HostAction :=
  syms.flatMap fun sym => [issue (.encsym sym), issue .pack]

/-- The index of the symbol is in no result but `F_SYM` (60_exceptions R162). -/
theorem encodeSymbol_done_index {index : Option Nat} {sym : Byte} {s t : State}
    (h : encodeSymbol index sym s = .done t) (index' : Option Nat) : encodeSymbol index' sym s = .done t := by
  obtain ⟨hpv, hsym, rfl⟩ := encodeSymbol_done h
  exact encodeSymbol_of_lt hpv hsym

theorem runSteps_encodeActions {syms : List Byte} {i : Nat} {s t : State} (hf : s.fault = none)
    (h : encodeLoop syms i s = .done t) (k : Nat) (rest : List HostAction) :
    runSteps (2 * syms.length + k) (s.takeAction (encodeActions syms ++ rest)) = runSteps k (t.takeAction rest) := by
  induction syms generalizing i s with
  | nil =>
    cases h
    rw [List.length_nil, Nat.mul_zero, Nat.zero_add]
    rfl
  | cons sym syms ih =>
    obtain ⟨u, hu, h⟩ := Result.andThen_eq_done.mp h
    obtain ⟨v, hv, h⟩ := Result.andThen_eq_done.mp h
    have hu' := commandBody_fault (i := .encsym sym) (encodeSymbol_done_index hu none) hf
    have hv' := commandBody_fault (i := .pack) hv hu'
    have hsteps : 2 * (sym :: syms).length + k = 2 * syms.length + k + 1 + 1 := by rw [List.length_cons]; omega
    rw [hsteps]
    calc
      _ = runSteps (2 * syms.length + k + 1) (u.takeAction (issue .pack :: (encodeActions syms ++ rest))) :=
        runSteps_issue (i := .encsym sym) hf (encodeSymbol_done_index hu none) _ _
      _ = runSteps (2 * syms.length + k) (v.takeAction (encodeActions syms ++ rest)) :=
        runSteps_issue (i := .pack) hu' hv _ _
      _ = _ := ih hv' h

/-- Settles O43: the loop is its `ENCSYM`s and `PACK`s, between the `BSCLR` and the `SERIALIZE`. -/
theorem encodeIsItsPrimitives : Obligations.EncodeIsItsPrimitives := by
  intro s t h ht
  obtain ⟨hf, hb⟩ := exec_next_done h ht
  obtain ⟨-, u, hloop, hser⟩ := encodeBuffer_done hb
  obtain ⟨hframe, -⟩ := encodeLoop_frame hloop
  have hu : u.fault = none := by rw [hframe]; exact hf
  calc
    _ = runSteps (2 * s.ilen + 1 + 1) (s.takeAction (issue .bsclr :: (encodeActions s.ibuf ++ [issue .serialize]))) :=
      rfl
    _ = runSteps (2 * s.ilen + 1)
          (((s.writeBs []).writeCur 0).takeAction (encodeActions s.ibuf ++ [issue .serialize])) :=
      runSteps_issue (i := .bsclr) hf rfl _ _
    _ = runSteps 1 (u.takeAction [issue .serialize]) :=
      runSteps_encodeActions (s := (s.writeBs []).writeCur 0) hf hloop _ _
    _ = runSteps 0 (t.takeAction []) := runSteps_issue (i := .serialize) hu hser _ _
    _ = _ := rfl

/-! ### The `DECSYM`s of a `DECODE` -/

/-- `DecsymRun s syms t`: `DECSYM`s that end, one after the other, lead from `s` to `t` and write these symbols. -/
inductive DecsymRun : State → List Byte → State → Prop
  | nil (s : State) : DecsymRun s [] s
  | cons {s t u : State} {syms : List Byte} (h : decodeSymbol s = .done t) (hrun : DecsymRun t syms u) :
      DecsymRun s (t.symo :: syms) u

theorem runSteps_decsymRun {s t : State} {syms : List Byte} (hf : s.fault = none) (h : DecsymRun s syms t) (k : Nat)
    (rest : List HostAction) :
    runSteps (syms.length + k) (s.takeAction (List.replicate syms.length (issue .decsym) ++ rest)) =
      runSteps k (t.takeAction rest) := by
  induction h with
  | nil s => rw [List.length_nil, Nat.zero_add]; rfl
  | @cons s t u syms h _ ih =>
    rw [List.length_cons, Nat.add_right_comm]
    calc
      _ = runSteps (syms.length + k) (t.takeAction (List.replicate syms.length (issue .decsym) ++ rest)) :=
        runSteps_issue (i := .decsym) hf h _ _
      _ = _ := ih (commandBody_fault (i := .decsym) h hf)

/-- The state after the `DECSYM` that wrote the symbol of index `k`. -/
theorem DecsymRun.take {s t : State} {syms : List Byte} (h : DecsymRun s syms t) {k : Nat} (hk : k < syms.length) :
    ∃ u, DecsymRun s (syms.take (k + 1)) u ∧ syms[k]? = some u.symo := by
  induction h generalizing k with
  | nil s => simp at hk
  | @cons s t u syms h _ ih =>
    cases k with
    | zero => exact ⟨t, .cons h (.nil t), rfl⟩
    | succ k =>
      obtain ⟨v, hrun, hsymo⟩ := ih (Nat.lt_of_succ_lt_succ hk)
      exact ⟨v, .cons h hrun, hsymo⟩

/-- `DECSYM` does not touch `OBUF` (43_symbol_decoder R120). -/
theorem decodeSymbol_writeObuf {s t : State} (h : decodeSymbol s = .done t) (bytes : List Byte) :
    decodeSymbol (s.writeObuf bytes) = .done (t.writeObuf bytes) := by
  obtain ⟨hpv, hc, hm, ⟨hv, rfl⟩ | ⟨hv, b, hb, rfl⟩⟩ := decodeSymbol_done h
  · exact decodeSymbol_short (s := s.writeObuf bytes) hpv hc hm hv
  · exact decodeSymbol_long (s := s.writeObuf bytes) hpv hc hm hv hb

/-- A loop of `DECODE` that ends appends to `OBUF` the symbols its `DECSYM`s write, which do not depend on `OBUF`
(44_composite_operations R132). -/
theorem decodeLoop_decsymRun {fuel : Nat} {s t : State} (h : decodeLoop fuel s = .done t) (bytes : List Byte) :
    ∃ syms, t.obuf = s.obuf ++ syms ∧ DecsymRun (s.writeObuf bytes) syms (t.writeObuf bytes) := by
  induction fuel generalizing s with
  | zero =>
    rw [decodeLoop] at h
    split at h
    case isTrue => cases h
    case isFalse => cases h; exact ⟨[], (List.append_nil _).symm, .nil _⟩
  | succ fuel ih =>
    rw [decodeLoop] at h
    split at h
    case isFalse => cases h; exact ⟨[], (List.append_nil _).symm, .nil _⟩
    case isTrue =>
      obtain ⟨u, hu, h⟩ := Result.andThen_eq_done.mp h
      obtain ⟨v, hv, h⟩ := Result.andThen_eq_done.mp h
      obtain ⟨-, rfl⟩ := obufAppend_done hv
      obtain ⟨syms, hobuf, hrun⟩ := ih h
      have hkeep : u.obuf = s.obuf := by rw [decodeSymbol_frame hu]
      refine ⟨u.symo :: syms, ?_, .cons (t := u.writeObuf bytes) (decodeSymbol_writeObuf hu bytes) hrun⟩
      rw [hobuf, State.writeObuf_obuf, hkeep, List.append_assoc, List.singleton_append]

/-- `DECODE` is `DESERIALIZE` and the `DECSYM`s of the symbols it leaves in `OBUF` (44_composite_operations R132). -/
theorem decodeBuffer_decsymRun {s t : State} (h : decodeBuffer s = .done t) :
    ∃ u, deserialize s = .done u ∧ DecsymRun u t.obuf (t.writeObuf s.obuf) := by
  obtain ⟨-, u, hdes, hloop⟩ := decodeBuffer_done h
  obtain ⟨syms, hobuf, hrun⟩ := decodeLoop_decsymRun hloop u.obuf
  have hkeep : u.obuf = s.obuf := (commandBody_writes (i := .deserialize) hdes).obuf nofun nofun nofun
  rw [State.writeObuf_obuf, List.nil_append] at hobuf
  refine ⟨u, hdes, ?_⟩
  rw [← hkeep, hobuf]
  exact hrun

/-- Settles O50: the `DECSYM`s of `DECODE`'s loop do not depend on `OBUF`, and byte `k` of it is what the `k`-th
wrote. -/
theorem decodeIsItsPrimitives : Obligations.DecodeIsItsPrimitives := by
  intro s t h ht
  obtain ⟨hf, hb⟩ := exec_next_done h ht
  obtain ⟨u, hdes, hrun⟩ := decodeBuffer_decsymRun hb
  have hu := commandBody_fault (i := .deserialize) hdes hf
  have hstart (k : Nat) (rest : List HostAction) :
      runSteps (k + 1) { s with host := issue .deserialize :: rest } = runSteps k (u.takeAction rest) :=
    runSteps_issue (i := .deserialize) hf hdes k rest
  refine ⟨?_, fun k hk => ?_⟩
  · rw [hstart, ← List.append_nil (List.replicate _ _)]
    exact runSteps_decsymRun hu hrun 0 []
  · obtain ⟨v, hprefix, hsymo⟩ := hrun.take hk
    refine ⟨v.takeAction (List.replicate (t.olen - (k + 1)) (issue .decsym)), ?_, hsymo⟩
    have hlen : (t.obuf.take (k + 1)).length = k + 1 := List.length_take_of_le hk
    have hsplit : t.olen = k + 1 + (t.olen - (k + 1)) := (Nat.add_sub_cancel' hk).symm
    have hsteps := runSteps_decsymRun hu hprefix 0 (List.replicate (t.olen - (k + 1)) (issue .decsym))
    rw [hlen, List.replicate_append_replicate, ← hsplit] at hsteps
    rw [hstart]
    exact hsteps

/-! ### The symbols of a `DECODE` -/

/-- A symbol `DECSYM` writes is below `PR.N` (45_laws R157). -/
theorem decodeSymbol_symo_lt {s t : State} (hp : s.ParamsOk) (h : decodeSymbol s = .done t) :
    t.symo.toNat < s.prN.toNat := by
  have hv := readBits_lt s.bs s.cur s.prM.toNat
  obtain ⟨-, -, hpt, hptn, -⟩ := hp.params.facts
  obtain ⟨-, -, -, ⟨hshort, rfl⟩ | ⟨hlong, b, -, rfl⟩⟩ := decodeSymbol_done h
  · rw [State.writeSymbol_symo, BitVec.toNat_ofNat]
    exact (Nat.mod_le _ _).trans_lt (hshort.trans_le hptn)
  · rw [State.writeSymbol_symo, BitVec.toNat_ofNat]
    exact (Nat.mod_le _ _).trans_lt (hp.params.decoded_lt hv (Bool.toNat_le b) hlong)

theorem DecsymRun.symbols_lt {s t : State} {syms : List Byte} (h : DecsymRun s syms t) (hp : s.ParamsOk) :
    ∀ sym ∈ syms, sym.toNat < s.prN.toNat := by
  induction h with
  | nil s => simp
  | @cons s t u syms h _ ih =>
    have hframe := decodeSymbol_frame h
    have hpt : t.ParamsOk := by rw [hframe]; exact hp
    have hprN : t.prN = s.prN := by rw [hframe]
    exact List.forall_mem_cons.mpr ⟨decodeSymbol_symo_lt hp h, hprN ▸ ih hpt⟩

/-- Settles O47: the loop ends at the end of the sequence, and each of its symbols is a `DECSYM`'s. -/
theorem decodeEndState : Obligations.DecodeEndState := by
  intro s t hinv h ht
  obtain ⟨hf, hb⟩ := exec_next_done h ht
  obtain ⟨hpv, -⟩ := decodeBuffer_done hb
  obtain ⟨u, hdes, hrun⟩ := decodeBuffer_decsymRun hb
  have hloop := (decodeBuffer_of_deserialize hpv hdes).symm.trans hb
  have hp := (State.inv_iff_sound.mp hinv hf).params hpv
  obtain ⟨header, payload, -, -, -, -, rfl⟩ := deserialize_done hdes
  obtain ⟨hframe, hend⟩ := decodeLoop_done hloop (Nat.zero_le _)
  have hbs : t.bs = deserialized header.toNat payload := by rw [hframe]; rfl
  refine ⟨⟨_, runCommand_done hf hdes, hf, hbs⟩, by rw [hend, State.blen, hbs]; rfl, hrun.symbols_lt hp, ?_⟩
  cases decodeBuffer_writes hb
  rfl

end Sys2Proof.Machine
end

section
/-!
The end of `DECODE` on a buffer of codewords and its faults before the loop (O46, O48), and the one-symbol alphabet,
where a codeword is no bits (O51).
-/

namespace Sys2Proof.Machine

/-! ### `DECODE` of codewords -/

/-- The end state of `DECODE` after these symbols, piece by piece (44_composite_operations R131). -/
theorem afterDecode_loopStart (s : State) (syms : List Byte) (bits : List Bool) :
    afterDecode syms (s.loopStart bits) =
      { s with
        bs := bits
        cur := (syms.flatMap s.codeword).length
        symo := syms.getLast?.getD s.symo
        sv := s.sv || decide (syms ≠ [])
        obuf := syms } := by
  rw [← afterDecode_loopStart_cur s syms bits]
  rfl

/-- Settles O46: the loop recovers the symbols of the codewords the sequence is made of. -/
theorem decodeRecoversTheSymbols : Obligations.DecodeRecoversTheSymbols := by
  intro s header payload syms hf hinv hpv hm hb hh he hn hbits hbs hobuf
  have hp := (State.inv_iff_sound.mp hinv hf).params hpv
  have hdes := deserialize_fits hb hh he hbs
  rw [deserialized, hbits] at hdes
  have hturns : syms.length ≤ decodeFuel ((s.writeBs (syms.flatMap s.codeword)).writeCur 0) :=
    (length_le_length_flatMap_codeword hm syms).trans (Nat.le_add_right _ _)
  have hloop := decodeLoop_codewords syms _ (s.loopStart (syms.flatMap s.codeword)) hpv hp hm hn (Nat.zero_le _)
    List.drop_zero hturns (by simpa [State.loopStart] using hobuf)
  rw [afterDecode_loopStart] at hloop
  exact runCommand_done hf ((decodeBuffer_of_deserialize hpv hdes).trans hloop)

/-! ### Faults before the loop -/

/-- A next state with a fault, from a state without one, is the one a raised cause leaves. -/
theorem commandBody_raised_of_fault {s t : State} {i : Instr} {c : Cause} (hf : s.fault = none) (h : exec i s = .next t)
    (ht : t.fault = some c) : commandBody i s = .raised c := by
  rw [exec_eq] at h
  cases hb : commandBody i s with
  | done u =>
    rw [runCommand_done hf hb] at h
    cases h
    rw [(commandBody_writes hb).fault, hf] at ht
    cases ht
  | raised c' =>
    rw [runCommand_raised hf hb] at h
    cases h
    cases ht
    rfl
  | endless =>
    rw [runCommand_endless hf hb] at h
    cases h

/-- `DECODE` without parameters raises `F_NOPARAM`, whatever the buffer (60_exceptions R165). -/
theorem decodeBuffer_noParams {s : State} (hpv : s.pv = false) : decodeBuffer s = .raised .fNoparam := by
  rw [decodeBuffer, requireParams, if_neg (by simp [hpv])]

/-- Settles O48: `DESERIALIZE` is the first command `DECODE` runs, once `PV` is set. -/
theorem decodeFaultsBeforeItsLoop : Obligations.DecodeFaultsBeforeItsLoop := by
  intro s hf
  refine ⟨fun hpv => ?noParams, fun u c hpv h hu => ?deserialize⟩
  case noParams => exact ⟨_, runCommand_raised hf (decodeBuffer_noParams hpv), takeFault_fault _ _⟩
  case deserialize =>
    have hdes : deserialize s = .raised c := commandBody_raised_of_fault hf h hu
    have hbody : decodeBuffer s = .raised c := by
      rw [decodeBuffer, requireParams, if_pos hpv, hdes, Result.raised_andThen]
    exact ⟨_, runCommand_raised hf hbody, takeFault_fault _ _⟩

/-! ### The one-symbol alphabet -/

/-- With `PR.N = 1` the codeword of symbol 0 is no bits (45_laws R148). -/
theorem codeword_oneSymbol {s : State} (hp : s.ParamsOk) (hN : s.prN.toNat = 1) : s.codeword 0 = [] := by
  have hm := hp.params.m_eq_zero.mpr hN
  obtain ⟨-, -, hpt, -, -⟩ := hp.params.facts
  have hlen := symbolLength_short (m := s.prM.toNat) (Nat.lt_of_lt_of_le Nat.zero_lt_one hpt)
  rw [← List.length_eq_zero_iff, codeword_length]
  exact hlen.trans hm

/-- With `PR.N = 1` an iteration of the loop of `DECODE` appends a zero byte and does not move the cursor
(44_composite_operations R133). -/
theorem decodeLoop_oneSymbol {fuel : Nat} {s : State} (hpv : s.pv = true) (hp : s.ParamsOk) (hN : s.prN.toNat = 1)
    (hc : s.cur < s.bs.length) :
    decodeLoop (fuel + 1) s = (obufAppend 0 (s.writeSymbol 0 0)).andThen (decodeLoop fuel) := by
  have hempty := codeword_oneSymbol hp hN
  have hdec := decodeSymbol_codeword (sym := 0) (rest := s.bs.drop s.cur) hpv hp (by simp [hN]) hc (by rw [hempty]; rfl)
  rw [← codeword_length, hempty] at hdec
  rw [decodeLoop, if_pos hc, hdec]
  rfl

/-- With `PR.N = 1` and `OBUF` unbounded the loop of `DECODE` never ends (44_composite_operations R133). -/
theorem decodeLoop_oneSymbol_endless {fuel : Nat} {s : State} (hpv : s.pv = true) (hp : s.ParamsOk)
    (hN : s.prN.toNat = 1) (hc : s.cur < s.bs.length) (hcap : s.caps.obuf = none) :
    decodeLoop fuel s = .endless := by
  induction fuel generalizing s with
  | zero => rw [decodeLoop, if_pos hc]
  | succ fuel ih =>
    rw [decodeLoop_oneSymbol hpv hp hN hc, obufAppend_fits (by simp [hcap]), Result.done_andThen]
    exact ih hpv hp hN hc hcap

/-- With `PR.N = 1` and a finite `OBUF` the loop of `DECODE` fills it (44_composite_operations R133). -/
theorem decodeLoop_oneSymbol_full {fuel k : Nat} {s : State} (hpv : s.pv = true) (hp : s.ParamsOk)
    (hN : s.prN.toNat = 1) (hc : s.cur < s.bs.length) (hcap : s.caps.obuf = some k) (hle : s.obuf.length ≤ k)
    (hfuel : k < s.obuf.length + fuel) : decodeLoop fuel s = .raised (.fCap .obuf) := by
  induction fuel generalizing s with
  | zero => omega
  | succ fuel ih =>
    rw [decodeLoop_oneSymbol hpv hp hN hc, obufAppend_eq]
    by_cases hroom : s.obuf.length + 1 ≤ k
    · rw [if_pos (by simpa [hcap] using hroom), Result.done_andThen]
      exact ih hpv hp hN hc hcap (by simpa using hroom) (by simp; omega)
    · rw [if_neg (by simpa [hcap] using hroom), Result.raised_andThen]

/-- The loop of `DECODE` at the end of the sequence ends at once. -/
theorem decodeLoop_atEnd {fuel : Nat} {s : State} (hc : s.bs.length ≤ s.cur) : decodeLoop fuel s = .done s := by
  cases fuel <;> rw [decodeLoop, if_neg (Nat.not_lt.mpr hc)]

/-- Settles O51: the codewords of zeros are no bits, and a `DECODE` at a bit stands still. -/
theorem oneSymbolAlphabetBuffers : Obligations.OneSymbolAlphabetBuffers := by
  intro s hf hinv hpv hN
  have hp := (State.inv_iff_sound.mp hinv hf).params hpv
  refine ⟨fun hzero hobuf => ?encode, fun hb => ?header, fun header payload hb hh hne hbs => ?payload⟩
  case encode =>
    have hnil : s.ibuf.flatMap s.codeword = [] :=
      List.flatMap_eq_nil_iff.mpr fun sym hsym => by rw [hzero sym hsym, codeword_oneSymbol hp hN]
    have hn (sym : Byte) (hsym : sym ∈ s.ibuf) : sym.toNat < s.prN.toNat := by simp [hzero sym hsym, hN]
    have hdone := encodeBuffer_fits hpv hp hn (by rw [hnil]; exact admits_zero _) (by rw [hnil]; exact hobuf)
    rw [hnil] at hdone
    refine ⟨_, runCommand_done hf hdone, by simpa using hf, ?_, rfl⟩
    rw [State.writeObuf_bs, afterEncode_bs]
    exact hnil
  case header =>
    have hdes := deserialize_fits hb (by decide) (fun _ => rfl) (admits_zero _)
    have hdone := (decodeBuffer_of_deserialize hpv hdes).trans (decodeLoop_atEnd (Nat.le_refl 0))
    exact ⟨_, runCommand_done hf hdone, hf, rfl⟩
  case payload =>
    have hdes := deserialize_fits hb hh (fun h => absurd h hne) hbs
    have hc : 0 < (deserialized header.toNat payload).length := by
      have hpos := List.length_pos_iff.mpr hne
      rw [deserialized_length]; omega
    generalize deserialized header.toNat payload = bits at hdes hc
    have hbody := decodeBuffer_of_deserialize hpv hdes
    refine ⟨fun hcap => ?unbounded, fun k hcap => ?bounded⟩
    case unbounded =>
      exact runCommand_endless hf
        (hbody.trans (decodeLoop_oneSymbol_endless (s := s.loopStart bits) hpv hp hN hc hcap))
    case bounded =>
      have hturns : k < 0 + decodeFuel ((s.writeBs bits).writeCur 0) := by simp [decodeFuel, hcap]; omega
      have hloop := decodeLoop_oneSymbol_full (s := s.loopStart bits) hpv hp hN hc hcap (Nat.zero_le _) hturns
      exact ⟨_, runCommand_raised hf (hbody.trans hloop), takeFault_fault _ _⟩

end Sys2Proof.Machine
end

section
/-!
The results of `ENCODE` and `DECODE` do not depend on the working state (O53): `BS` and `CUR` are cleared first, and
each of `CODE`, `LEN`, `SYMO` is written before it is read.
-/

namespace Sys2Proof.Machine

/-- The registers a composite writes before it reads them, with their valid bits. -/
structure Working where
  code : CodeWord
  len : BitVec 8
  symo : Byte
  rv : Bool
  sv : Bool

/-- The same state with other values in those registers. -/
def State.withWorking (s : State) (w : Working) : State :=
  { s with code := w.code, len := w.len, symo := w.symo, rv := w.rv, sv := w.sv }

/-! ### `ENCODE` -/

theorem encodeSymbol_withWorking {index : Option Nat} {sym : Byte} {s t : State}
    (h : encodeSymbol index sym s = .done t) (w : Working) :
    encodeSymbol index sym (s.withWorking w) =
      .done (t.withWorking { w with code := t.code, len := t.len, rv := t.rv }) := by
  obtain ⟨hpv, hsym, rfl⟩ := encodeSymbol_done h
  exact encodeSymbol_of_lt (s := s.withWorking w) hpv hsym

/-- `PACK` reads `CODE`, `LEN` and `RV`, and `SYMO` and `SV` do not reach it. -/
theorem packPair_withWorking {s t : State} (h : packPair s = .done t) (w : Working) :
    packPair (s.withWorking { w with code := s.code, len := s.len, rv := s.rv }) =
      .done (t.withWorking { w with code := s.code, len := s.len, rv := s.rv }) := by
  obtain ⟨hrv, happ⟩ := packPair_done h
  obtain ⟨hfit, rfl⟩ := append_done happ
  refine (packPair_of_value (by exact hrv)).trans ?_
  rw [append_eq]
  exact if_pos hfit

/-- A loop of `ENCODE` that ends, ends from other working registers with the rest of the state the same. -/
theorem encodeLoop_withWorking {syms : List Byte} {i : Nat} {s t : State} (h : encodeLoop syms i s = .done t)
    (w : Working) : ∃ w', encodeLoop syms i (s.withWorking w) = .done (t.withWorking w') := by
  induction syms generalizing i s w with
  | nil => cases h; exact ⟨w, rfl⟩
  | cons sym rest ih =>
    obtain ⟨u, hu, h⟩ := Result.andThen_eq_done.mp h
    obtain ⟨v, hv, h⟩ := Result.andThen_eq_done.mp h
    obtain ⟨w', hrest⟩ := ih h { w with code := u.code, len := u.len, rv := u.rv }
    refine ⟨w', ?_⟩
    rw [encodeLoop, encodeSymbol_withWorking hu, Result.done_andThen, packPair_withWorking hv, Result.done_andThen,
      hrest]

theorem serialize_withWorking {s t : State} (h : serialize s = .done t) (w : Working) :
    serialize (s.withWorking w) = .done (t.withWorking w) := by
  obtain ⟨hfit, rfl⟩ := serialize_done h
  rw [serialized_length] at hfit
  rw [serialize_eq]
  exact if_pos hfit

/-- `ENCODE` from another working state (44_composite_operations R132). -/
theorem encodeBuffer_withWorking {s t : State} (h : encodeBuffer s = .done t) (w : Working) (bits : List Bool)
    (cur : Nat) : ∃ w', encodeBuffer (((s.writeBs bits).writeCur cur).withWorking w) = .done (t.withWorking w') := by
  obtain ⟨hpv, u, hloop, hser⟩ := encodeBuffer_done h
  obtain ⟨w', hloop'⟩ := encodeLoop_withWorking hloop w
  refine ⟨w', ?_⟩
  rw [encodeBuffer_eq (by exact hpv)]
  exact (congrArg (fun r : Result => r.andThen serialize) hloop').trans (serialize_withWorking hser w')

/-! ### `DECODE` -/

theorem deserialize_withWorking {s t : State} (h : deserialize s = .done t) (w : Working) (bits : List Bool)
    (cur : Nat) : deserialize (((s.writeBs bits).writeCur cur).withWorking w) = .done (t.withWorking w) := by
  obtain ⟨header, payload, hb, hh, he, hfit, rfl⟩ := deserialize_done h
  rw [deserialize_cons (by exact hb), if_neg (by rintro (h7 | hnil); exacts [Nat.not_lt.mpr hh h7, he hnil])]
  exact if_pos hfit

theorem decodeSymbol_withWorking {s t : State} (h : decodeSymbol s = .done t) (w : Working) :
    decodeSymbol (s.withWorking w) = .done (t.withWorking { w with symo := t.symo, sv := t.sv }) := by
  obtain ⟨hpv, hc, hm, ⟨hv, rfl⟩ | ⟨hv, b, hb, rfl⟩⟩ := decodeSymbol_done h
  · exact decodeSymbol_short (s := s.withWorking w) hpv hc hm hv
  · exact decodeSymbol_long (s := s.withWorking w) hpv hc hm hv hb

theorem obufAppend_withWorking {v : Byte} {s t : State} (h : obufAppend v s = .done t) (w : Working) :
    obufAppend v (s.withWorking w) = .done (t.withWorking w) := by
  obtain ⟨hfit, rfl⟩ := obufAppend_done h
  exact obufAppend_fits (s := s.withWorking w) hfit

/-- A loop of `DECODE` that ends, ends from other working registers with the rest of the state the same. -/
theorem decodeLoop_withWorking {fuel : Nat} {s t : State} (h : decodeLoop fuel s = .done t) (w : Working) :
    ∃ w', decodeLoop fuel (s.withWorking w) = .done (t.withWorking w') := by
  induction fuel generalizing s w with
  | zero =>
    rw [decodeLoop] at h
    split at h
    case isTrue => cases h
    case isFalse hend => cases h; exact ⟨w, if_neg hend⟩
  | succ fuel ih =>
    rw [decodeLoop] at h
    split at h
    case isFalse hend => cases h; exact ⟨w, if_neg hend⟩
    case isTrue hlt =>
      obtain ⟨u, hu, h⟩ := Result.andThen_eq_done.mp h
      obtain ⟨v, hv, h⟩ := Result.andThen_eq_done.mp h
      obtain ⟨w', hrest⟩ := ih h { w with symo := u.symo, sv := u.sv }
      refine ⟨w', ?_⟩
      rw [decodeLoop, if_pos (by exact hlt), decodeSymbol_withWorking hu, Result.done_andThen]
      exact (congrArg (fun r : Result => r.andThen (decodeLoop fuel)) (obufAppend_withWorking hv _)).trans hrest

/-- `DECODE` from another working state (44_composite_operations R132). -/
theorem decodeBuffer_withWorking {s t : State} (h : decodeBuffer s = .done t) (w : Working) (bits : List Bool)
    (cur : Nat) : ∃ w', decodeBuffer (((s.writeBs bits).writeCur cur).withWorking w) = .done (t.withWorking w') := by
  obtain ⟨hpv, u, hdes, hloop⟩ := decodeBuffer_done h
  obtain ⟨w', hloop'⟩ := decodeLoop_withWorking hloop w
  exact ⟨w', (decodeBuffer_of_deserialize (by exact hpv) (deserialize_withWorking hdes w bits cur)).trans hloop'⟩

/-- Settles O53: from another working state the composite ends in the same state but for the working registers. -/
theorem compositeResultsIgnoreTheWorkingState : Obligations.CompositeResultsIgnoreTheWorkingState := by
  intro i s t bits cur code len symo rv sv hi h ht
  obtain ⟨hf, hb⟩ := exec_next_done h ht
  obtain ⟨w', hb'⟩ : ∃ w',
      commandBody i (((s.writeBs bits).writeCur cur).withWorking ⟨code, len, symo, rv, sv⟩) =
        .done (t.withWorking w') := by
    obtain rfl | rfl := hi
    · exact encodeBuffer_withWorking hb _ bits cur
    · exact decodeBuffer_withWorking hb _ bits cur
  refine ⟨t.withWorking w', ?_, ht, rfl⟩
  rw [exec_eq]
  exact runCommand_done hf hb'

end Sys2Proof.Machine
end

section
/-!
The laws of one symbol (45_laws): the identity of the parameters (O17), the value and the length of a
codeword (O21 to O24), the code's prefix-freeness (O25, O26), and `DECSYM` as the inverse of `ENCSYM` (O38, O39).
-/

namespace Sys2Proof.Machine

/-- Settles O17, from the relations of 10_state R15 that hold of the registers `DERIVE` leaves. -/
theorem parameterIdentity : Obligations.ParameterIdentity := by
  intro s n hf h1 h2
  obtain ⟨t, ht, htf, hn, hp⟩ := exec_derive_params hf h1 h2
  obtain ⟨hsum, hpl, hpt, hptn, -⟩ := hp.facts
  exact ⟨t, ht, htf, hsum, hpl, hpt, hptn, hn⟩

/-! ### The pair `ENCSYM` writes -/

theorem State.Inv.paramsOk {s : State} (hinv : s.Inv) (hf : s.fault = none) (hpv : s.pv = true) : s.ParamsOk :=
  (State.inv_iff_sound.mp hinv hf).params hpv

/-- A `PR.M` of 4 bits makes no length that `LEN` would cut (10_state R18). -/
theorem toNat_symbolLength (m : BitVec 4) (pt sym : Nat) :
    (BitVec.ofNat 8 (symbolLength m.toNat pt sym)).toNat = symbolLength m.toNat pt sym := by
  have hm := m.isLt
  have hlen : symbolLength m.toNat pt sym ≤ m.toNat + 1 := by unfold symbolLength; split <;> omega
  exact Nat.mod_eq_of_lt (by omega)

/-- The bits of the pair `ENCSYM` writes are the symbol's codeword (30_encoding R61, R62). -/
theorem codeBits_writePair (s : State) (sym : Byte) :
    codeBits (BitVec.ofNat 16 (symbolCode s.prM.toNat s.prPT.toNat sym.toNat))
      (BitVec.ofNat 8 (symbolLength s.prM.toNat s.prPT.toNat sym.toNat)).toNat = s.codeword sym := by
  rw [toNat_symbolLength, State.codeword]

/-- `ENCSYM` of a symbol of the alphabet: neither register cuts its value (45_laws R149). -/
theorem exec_encsym_pair {s : State} {sym : Byte} (hf : s.fault = none) (hpv : s.pv = true) (hp : s.ParamsOk)
    (hn : sym.toNat < s.prN.toNat) :
    ∃ t, exec (.encsym sym) s = .next t ∧ t.fault = none ∧
      t.code.toNat = symbolCode s.prM.toNat s.prPT.toNat sym.toNat ∧
      t.len.toNat = symbolLength s.prM.toNat s.prPT.toNat sym.toNat ∧
      codeBits t.code t.len.toNat = s.codeword sym := by
  have hcode := hp.params.code_lt_256 hn
  exact ⟨_, exec_encsym hf hpv hn, hf, Nat.mod_eq_of_lt (by omega), toNat_symbolLength _ _ _, codeBits_writePair s sym⟩

/-! ### The value of a codeword -/

/-- The value of the first `k` bits, from the value of all of them. -/
theorem bitsValue_take (bits : List Bool) (k : Nat) :
    bitsValue (bits.take k) = bitsValue bits / 2 ^ (bits.length - k) := by
  have hlt := bitsValue_lt (bits.drop k)
  have hsplit := bitsValue_append (bits.take k) (bits.drop k)
  rw [List.take_append_drop] at hsplit
  rw [List.length_drop] at hlt hsplit
  rw [hsplit, Nat.mul_comm, Nat.mul_add_div (Nat.two_pow_pos _), Nat.div_eq_of_lt hlt, Nat.add_zero]

/-- The `m`-bit prefix of a long codeword (45_laws R158). -/
theorem bitsValue_take_codeword_long {s : State} (hp : s.ParamsOk) {sym : Byte} (hs : s.prPT.toNat ≤ sym.toNat)
    (hn : sym.toNat < s.prN.toNat) :
    bitsValue ((s.codeword sym).take s.prM.toNat) = (sym.toNat + s.prPT.toNat) / 2 := by
  rw [bitsValue_take, codeword_value hp hn, hp.params.code_long hs hn, codeword_length, symbolLength_long hs,
    Nat.add_sub_cancel_left, pow_one]

/-- Settles O21, from the closed form of a long symbol's code. -/
theorem longCodewordClosedForm : Obligations.LongCodewordClosedForm := by
  intro s sym hf hinv hpv hs hn
  have hp := hinv.paramsOk hf hpv
  obtain ⟨hsum, -, hpt, -, hsize⟩ := hp.params.facts
  obtain ⟨t, ht, htf, hcode, -, hbits⟩ := exec_encsym_pair hf hpv hp hn
  rw [hp.params.code_long hs hn] at hcode
  refine ⟨t, ht, htf, hcode, ?_, ?_⟩
  · rw [hbits, bitsValue_take_codeword_long hp hs hn]
  · rw [pow_succ]
    omega

/-- Settles O23: a code below `2^LEN` is the value of its low `LEN` bits. -/
theorem codeFitsItsLength : Obligations.CodeFitsItsLength := by
  intro s sym hf hinv hpv hn
  have hp := hinv.paramsOk hf hpv
  obtain ⟨t, ht, htf, hcode, hlen, hbits⟩ := exec_encsym_pair hf hpv hp hn
  refine ⟨t, ht, htf, ?_, ?_⟩
  · rw [hcode, hlen]
    exact hp.params.code_lt hn
  · rw [hbits, hcode, codeword_value hp hn]

/-- `ENCSYM` of a long symbol, given by its number (45_laws R158). -/
theorem exec_encsym_long {s : State} {v : Nat} (hf : s.fault = none) (hpv : s.pv = true) (hp : s.ParamsOk)
    (hs : s.prPT.toNat ≤ v) (hn : v < s.prN.toNat) :
    ∃ t, exec (.encsym (BitVec.ofNat 8 v)) s = .next t ∧ t.fault = none ∧ t.len.toNat = s.prM.toNat + 1 ∧
      t.code.toNat = v + s.prPT.toNat := by
  have hv := hp.toNat_symbol hn
  obtain ⟨t, ht, htf, hcode, hlen, -⟩ := exec_encsym_pair hf hpv hp (by rwa [hv])
  rw [hv] at hcode hlen
  exact ⟨t, ht, htf, hlen.trans (symbolLength_long hs), hcode.trans (hp.params.code_long hs hn)⟩

/-- Settles O24: the pair `k` of the long class is the symbols `pt + 2k` and `pt + 2k + 1`. -/
theorem longSymbolsComeInPairs : Obligations.LongSymbolsComeInPairs := by
  intro s hf hinv hpv
  have hp := hinv.paramsOk hf hpv
  obtain ⟨-, -, -, -, hsize⟩ := hp.params.facts
  refine ⟨by omega, fun k hk => ?_⟩
  obtain ⟨t, ht, htf, htlen, htcode⟩ :=
    exec_encsym_long (v := s.prPT.toNat + 2 * k) hf hpv hp (by omega) (by omega)
  obtain ⟨u, hu, huf, hulen, hucode⟩ :=
    exec_encsym_long (v := s.prPT.toNat + 2 * k + 1) hf hpv hp (by omega) (by omega)
  exact ⟨t, u, ht, hu, htf, huf, htlen, hulen, by omega, by omega⟩

/-! ### The length of a codeword -/

theorem Params.m_eq_iff {n m pl pt : Nat} (h : Params n m pl pt) (k : Nat) : m = k ↔ 2 ^ k ≤ n ∧ n < 2 ^ (k + 1) := by
  constructor
  · rintro rfl
    exact ⟨h.pow_le, h.lt_pow⟩
  · rintro ⟨hle, hlt⟩
    exact (floorLog2_unique h.pow_le h.lt_pow).symm.trans (floorLog2_unique hle hlt)

/-- The codeword of no bits is that of the one-symbol alphabet (45_laws R148). -/
theorem Params.length_eq_zero_iff {n m pl pt : Nat} (h : Params n m pl pt) {sym : Nat} (hn : sym < n) :
    symbolLength m pt sym = 0 ↔ n = 1 := by
  obtain ⟨-, -, hpt, -, -⟩ := h.facts
  by_cases hs : sym < pt
  · rw [symbolLength_short hs, h.m_eq_zero]
  · rw [symbolLength_long (Nat.not_lt.mp hs)]
    omega

/-- The codewords of 8 bits (45_laws R148); `128` and `256` have no long symbols. -/
theorem Params.length_eq_eight_iff {n m pl pt : Nat} (h : Params n m pl pt) {sym : Nat} (hn : sym < n) :
    symbolLength m pt sym = 8 ↔ (128 < n ∧ n < 256 ∧ pt ≤ sym) ∨ n = 256 := by
  by_cases hs : sym < pt
  · rw [symbolLength_short hs, h.m_eq_eight]
    omega
  · obtain ⟨-, -, hnone⟩ := h.threshold_closed_form
    have hlong : n ≠ 2 ^ m := fun hpow => by have := hnone.mpr hpow; omega
    have h7 := h.m_eq_iff 7
    rw [symbolLength_long (Nat.not_lt.mp hs)]
    constructor
    · intro hm
      obtain rfl : m = 7 := by omega
      omega
    · rintro (⟨hgt, hlt, -⟩ | h256)
      · omega
      · rw [h.m_eq_eight.mpr h256] at hlong
        exact absurd h256 hlong

/-- Settles O22, from the length of the symbol's class. -/
theorem codewordLengthBounds : Obligations.CodewordLengthBounds := by
  intro s sym hf hinv hpv hn
  have hp := hinv.paramsOk hf hpv
  obtain ⟨t, ht, htf, -, hlen, -⟩ := exec_encsym_pair hf hpv hp hn
  refine ⟨t, ht, htf, ?_⟩
  rw [hlen]
  refine ⟨?_, hp.params.length_le hn, hp.params.length_eq_zero_iff hn, hp.params.length_eq_eight_iff hn⟩
  exact (Nat.lt_or_ge sym.toNat s.prPT.toNat).imp symbolLength_short symbolLength_long

/-! ### No codeword begins another -/

/-- Settles O25: the value of a short codeword is below the threshold, that of a long prefix is not. -/
theorem shortCodesAreNoLongPrefixes : Obligations.ShortCodesAreNoLongPrefixes := by
  intro s a b hf hinv hpv ha hb hbn
  have hp := hinv.paramsOk hf hpv
  have han : a.toNat < s.prN.toNat := by omega
  obtain ⟨t, ht, htf, -, -, htbits⟩ := exec_encsym_pair hf hpv hp han
  obtain ⟨u, hu, huf, -, -, hubits⟩ := exec_encsym_pair hf hpv hp hbn
  refine ⟨t, u, ht, hu, htf, huf, fun heq => ?_⟩
  rw [htbits, hubits] at heq
  have hvalue := congrArg bitsValue heq
  rw [codeword_value hp han, hp.params.code_short ha, bitsValue_take_codeword_long hp hb hbn] at hvalue
  omega

/-- Settles O26: a codeword begins with the codeword of one symbol only, its own. -/
theorem codewordsArePrefixFree : Obligations.CodewordsArePrefixFree := by
  intro s a b hf hinv hpv ha hb hab
  have hp := hinv.paramsOk hf hpv
  obtain ⟨t, ht, htf, -, -, htbits⟩ := exec_encsym_pair hf hpv hp ha
  obtain ⟨u, hu, huf, -, -, hubits⟩ := exec_encsym_pair hf hpv hp hb
  refine ⟨t, u, ht, hu, htf, huf, fun hprefix => hab ?_⟩
  rw [htbits, hubits] at hprefix
  have hne : a.toNat ≠ b.toNat := fun h => hab (BitVec.eq_of_toNat_eq h)
  have hm : s.prM.toNat ≠ 0 := fun h0 => by have := hp.params.m_eq_zero.mp h0; omega
  exact codeword_prefix_unique hpv hp (one_le_codeword_length (Nat.one_le_iff_ne_zero.mpr hm) b) ha hb hprefix
    (List.prefix_refl _)

/-! ### `DECSYM` after `ENCSYM` -/

/-- Settles O38: the pair `ENCSYM` writes is the codeword, and `DECSYM` reads the symbol back from it. -/
theorem decsymInvertsEncsym : Obligations.DecsymInvertsEncsym := by
  intro s t sym hinv h ht hroom hprefix
  obtain ⟨hf, hdone⟩ := exec_next_done h ht
  obtain ⟨hpv, hn, rfl⟩ := encodeSymbol_done hdone
  rw [State.writePair_code, State.writePair_len, codeBits_writePair] at hprefix
  obtain ⟨rest, hrest⟩ := hprefix
  have hc : s.cur < s.bs.length := by
    obtain hm | hc := hroom
    · have hlen := congrArg List.length hrest
      have hpos := one_le_codeword_length hm sym
      rw [List.length_append, List.length_drop] at hlen
      omega
    · exact hc
  have hdec := decodeSymbol_codeword hpv (hinv.paramsOk hf hpv) hn hc hrest.symm
  rw [State.writeSymbol, BitVec.ofNat_toNat, BitVec.setWidth_eq] at hdec
  rw [State.writePair_len, toNat_symbolLength]
  exact runCommand_done hf hdec

/-- Settles O39: `DECSYM` completes only with parameters, and then its symbol is below `PR.N`. -/
theorem decodedSymbolsAreInTheAlphabet : Obligations.DecodedSymbolsAreInTheAlphabet := by
  intro s t hinv h ht
  obtain ⟨hf, hdone⟩ := exec_next_done h ht
  obtain ⟨hpv, -⟩ := decodeSymbol_done hdone
  exact decodeSymbol_symo_lt (hinv.paramsOk hf hpv) hdone

end Sys2Proof.Machine
end

section
/-!
The laws of a whole buffer (45_laws): the size of an encoding (O44), its header and padding (O45), and the round
trip through `ENCODE` and `DECODE` (O52).
-/

namespace Sys2Proof.Machine

/-! ### What `ENCODE` has written when it completes -/

/-- The loop of `ENCODE` completes on symbols of the alphabet only, and appends their codewords
(44_composite_operations R130). -/
theorem encodeLoop_done {syms : List Byte} {i : Nat} {s t : State} (h : encodeLoop syms i s = .done t) :
    (∀ sym ∈ syms, sym.toNat < s.prN.toNat) ∧ t.bs = s.bs ++ syms.flatMap s.codeword := by
  induction syms generalizing i s with
  | nil => cases h; simp
  | cons sym rest ih =>
    obtain ⟨u, hu, h⟩ := Result.andThen_eq_done.mp h
    obtain ⟨v, hv, h⟩ := Result.andThen_eq_done.mp h
    obtain ⟨-, hsym, rfl⟩ := encodeSymbol_done hu
    obtain ⟨-, rfl⟩ := append_done (packPair_done hv).2
    obtain ⟨hrest, hbs⟩ := ih h
    refine ⟨List.forall_mem_cons.mpr ⟨hsym, hrest⟩, hbs.trans ?_⟩
    rw [State.writeBs_bs, State.writePair_bs, State.writePair_code, State.writePair_len, codeBits_writePair,
      List.flatMap_cons, List.append_assoc]
    rfl

/-- A completed `ENCODE`: symbols of the alphabet, their codewords in `BS`, and the buffer of those in `OBUF`. -/
theorem encodeBuffer_result {s t : State} (h : encodeBuffer s = .done t) :
    s.pv = true ∧ (∀ sym ∈ s.ibuf, sym.toNat < s.prN.toNat) ∧ t.bs = s.ibuf.flatMap s.codeword ∧
      t.obuf = serialized t.bs := by
  obtain ⟨hpv, u, hloop, hser⟩ := encodeBuffer_done h
  obtain ⟨hn, hbs⟩ := encodeLoop_done hloop
  obtain ⟨-, rfl⟩ := serialize_done hser
  exact ⟨hpv, hn, hbs, rfl⟩

/-! ### The size of an encoding -/

/-- Each symbol takes `m` bits, and a long one a bit more (45_laws R147). -/
theorem length_flatMap_codeword (s : State) (syms : List Byte) :
    (syms.flatMap s.codeword).length =
      s.prM.toNat * syms.length + syms.countP fun sym => decide (s.prPT.toNat ≤ sym.toNat) := by
  induction syms with
  | nil => simp
  | cons sym rest ih =>
    have hsym : (s.codeword sym).length = s.prM.toNat + if s.prPT.toNat ≤ sym.toNat then 1 else 0 := by
      rw [codeword_length]
      split
      case isTrue hs => exact symbolLength_long hs
      case isFalse hs => exact symbolLength_short (Nat.not_le.mp hs)
    rw [List.flatMap_cons, List.length_append, hsym, ih, List.countP_cons, List.length_cons, Nat.mul_succ]
    simp only [decide_eq_true_eq]
    omega

/-- Settles O44, from the length of the codewords. -/
theorem encodingSize : Obligations.EncodingSize := by
  intro s t hinv h ht
  obtain ⟨hf, hdone⟩ := exec_next_done h ht
  obtain ⟨hpv, hn, hbs, hobuf⟩ := encodeBuffer_result hdone
  have hlen := length_flatMap_codeword s s.ibuf
  have hlong := List.countP_le_length (l := s.ibuf) (p := fun sym => decide (s.prPT.toNat ≤ sym.toNat))
  have hle := flatMap_codeword_length_le (hinv.paramsOk hf hpv) hn
  rw [← hbs] at hlen hle
  rw [State.olen, hobuf, serialized_length, ceilDiv8_eq, Nat.succ_mul]
  refine ⟨?_, ?_, hle, hlen, ?_⟩ <;> simp only [State.blen, State.ilen] <;> omega

/-! ### The padding of an encoding -/

/-- The bits of the last payload byte below the sequence's end are 0 (42_bitstream_packer R104). -/
theorem serialized_padding {bits : List Bool} {v : Byte} (hv : (serialized bits).tail.getLast? = some v) {j : Nat}
    (hj : j < unusedBits bits.length) : v.getLsbD j = false := by
  have hj7 : j < 8 := hj.trans (unusedBits_lt _)
  have hend := unusedBits_eq bits.length
  rw [serialized, List.tail_cons] at hv
  cases hk : ceilDiv8 bits.length with
  | zero => simp [hk] at hv
  | succ k =>
    rw [hk, List.range_succ, List.map_append, List.map_singleton, List.getLast?_concat, Option.some_inj] at hv
    have hbit := payloadByte_getLsbD bits k (7 - j) (by omega)
    rw [List.getElem?_eq_none (by omega), show 7 - (7 - j) = j by omega, hv] at hbit
    exact hbit

/-- Settles O45: both commands leave the serialized sequence of `BS` in `OBUF`. -/
theorem paddingCorrectness : Obligations.PaddingCorrectness := by
  intro i s t hi h ht
  obtain ⟨-, hdone⟩ := exec_next_done h ht
  have hobuf : t.obuf = serialized t.bs := by
    obtain rfl | rfl := hi
    · obtain ⟨-, rfl⟩ := serialize_done hdone
      rfl
    · obtain ⟨-, -, -, hobuf⟩ := encodeBuffer_result hdone
      exact hobuf
  refine ⟨by rw [hobuf]; rfl, ?_, fun v hv j hj => serialized_padding (by rwa [← hobuf]) hj⟩
  rw [State.olen, hobuf, serialized_length, ceilDiv8_eq, Nat.add_comm]

/-! ### The round trip -/

/-- `DECODE` of a buffer of no bits leaves no bytes (44_composite_operations R131). -/
theorem decodeBuffer_empty {s : State} (hpv : s.pv = true) (hb : s.ibuf = serialized []) :
    ∃ t, decodeBuffer s = .done t ∧ t.obuf = [] := by
  have hdes := deserialize_fits (payload := []) hb (by decide) (fun _ => rfl) (admits_zero _)
  exact ⟨_, (decodeBuffer_of_deserialize hpv hdes).trans (decodeLoop_atEnd (Nat.le_refl 0)), rfl⟩

/-- `DECODE` of a buffer of codewords leaves their symbols (45_laws R154). -/
theorem decodeBuffer_codewords {s : State} {syms : List Byte} (hpv : s.pv = true) (hp : s.ParamsOk)
    (hm : 1 ≤ s.prM.toNat) (hn : ∀ sym ∈ syms, sym.toNat < s.prN.toNat) (hne : syms.flatMap s.codeword ≠ [])
    (hb : s.ibuf = serialized (syms.flatMap s.codeword))
    (hbs : admits s.caps.bs (syms.flatMap s.codeword).length = true)
    (hobuf : admits s.caps.obuf syms.length = true) : ∃ t, decodeBuffer s = .done t ∧ t.obuf = syms := by
  obtain ⟨header, payload, hser, hh, -, hlen, hdes⟩ := exists_serialized_eq (syms.flatMap s.codeword)
  obtain ⟨fuel, -, hdec⟩ := decodeBuffer_codewords_append (tail := []) hpv hp hm (hb.trans hser) hh hn
    (by rw [hdes, List.append_nil]) (by rwa [hdes]) (by rwa [hlen])
  rw [if_pos hobuf, List.append_nil, decodeLoop_atEnd (afterDecode_loopStart_cur s syms _).ge] at hdec
  exact ⟨_, hdec, List.nil_append syms⟩

/-- The one-symbol alphabet has no symbol but 0, whose codeword is no bits (44_composite_operations R133). -/
theorem flatMap_codeword_oneSymbol {s : State} (hp : s.ParamsOk) (hN : s.prN.toNat = 1) {syms : List Byte}
    (hn : ∀ sym ∈ syms, sym.toNat < s.prN.toNat) : syms.flatMap s.codeword = [] := by
  refine List.flatMap_eq_nil_iff.mpr fun sym hsym => ?_
  obtain rfl : sym = 0 := BitVec.eq_of_toNat_eq (Nat.lt_one_iff.mp (hN ▸ hn sym hsym))
  exact codeword_oneSymbol hp hN

/-- `DECODE` of the buffer `ENCODE` writes: the symbols come back when a codeword has bits, and nothing comes back when
none has (45_laws R154). -/
theorem decodeBuffer_of_encoded {s : State} {syms : List Byte} (hpv : s.pv = true) (hp : s.ParamsOk)
    (hn : ∀ sym ∈ syms, sym.toNat < s.prN.toNat) (hb : s.ibuf = serialized (syms.flatMap s.codeword))
    (hbs : admits s.caps.bs (syms.flatMap s.codeword).length = true)
    (hobuf : 2 ≤ s.prN.toNat → admits s.caps.obuf syms.length = true) :
    ∃ t, decodeBuffer s = .done t ∧ (2 ≤ s.prN.toNat → t.obuf = syms) ∧ (s.prN.toNat = 1 → t.obuf = []) := by
  have hm := hp.params.m_eq_zero
  by_cases hnil : syms.flatMap s.codeword = []
  · rw [hnil] at hb
    obtain ⟨t, hdec, ht⟩ := decodeBuffer_empty hpv hb
    refine ⟨t, hdec, fun h2 => ?_, fun _ => ht⟩
    have hlen := length_le_length_flatMap_codeword (s := s) (by omega) syms
    rw [hnil] at hlen
    rw [ht, List.eq_nil_of_length_eq_zero (Nat.le_zero.mp hlen)]
  · have hN : s.prN.toNat ≠ 1 := fun hN => hnil (flatMap_codeword_oneSymbol hp hN hn)
    have h1 := hp.params.n_pos
    obtain ⟨t, hdec, ht⟩ := decodeBuffer_codewords hpv hp (by omega) hn hnil hb hbs (hobuf (by omega))
    exact ⟨t, hdec, fun _ => ht, fun h => absurd h hN⟩

theorem step_derive {s : State} {n : AlphabetSize} {rest : List HostAction} (hf : s.fault = none)
    (hhost : s.host = issue (.derive n) :: rest) (h1 : 1 ≤ n.toNat) (h2 : n.toNat ≤ 256) :
    step s = .next ((s.takeAction rest).writeParams n.toNat (floorLog2 n.toNat) (longPrefixes n.toNat)
      (threshold n.toNat)) :=
  step_issue hf hhost ((deriveParams_eq n _).trans (if_pos ⟨h1, h2⟩))

theorem step_load {s : State} {bytes : List Byte} {rest : List HostAction} (hf : s.fault = none)
    (hhost : s.host = .load bytes :: rest) (hfit : admits s.caps.ibuf bytes.length = true) :
    step s = .next ((s.takeAction rest).writeIbuf bytes) :=
  step_loadBytes hf (.inl hhost) (if_pos hfit)

/-- `ENCODE` issued to a core whose capacities hold its results; the pair it leaves is not said here
(44_composite_operations R130). -/
theorem step_encode {s : State} {rest : List HostAction} (hf : s.fault = none)
    (hhost : s.host = issue .encode :: rest) (hpv : s.pv = true) (hp : s.ParamsOk)
    (hn : ∀ sym ∈ s.ibuf, sym.toNat < s.prN.toNat)
    (hbs : admits s.caps.bs (s.ibuf.flatMap s.codeword).length = true)
    (hobuf : admits s.caps.obuf (serialized (s.ibuf.flatMap s.codeword)).length = true) :
    ∃ code len rv, step s = .next { s.takeAction rest with
      bs := s.ibuf.flatMap s.codeword
      cur := 0
      code := code
      len := len
      rv := rv
      obuf := serialized (s.ibuf.flatMap s.codeword) } := by
  have hdone := encodeBuffer_fits (s := s.takeAction rest) hpv hp hn hbs (by rwa [serialized_length] at hobuf)
  rw [afterEncode_from_start] at hdone
  exact ⟨_, _, _, step_issue hf hhost hdone⟩

/-- `DECODE`, the host's last action, of the buffer `ENCODE` writes (45_laws R154). -/
theorem runSteps_decode_of_encoded {s : State} {syms : List Byte} (hf : s.fault = none)
    (hhost : s.host = [issue .decode]) (hpv : s.pv = true) (hp : s.ParamsOk)
    (hn : ∀ sym ∈ syms, sym.toNat < s.prN.toNat) (hb : s.ibuf = serialized (syms.flatMap s.codeword))
    (hbs : admits s.caps.bs (syms.flatMap s.codeword).length = true)
    (hobuf : 2 ≤ s.prN.toNat → admits s.caps.obuf syms.length = true) :
    ∃ t, runSteps 1 s = .next t ∧
      t.fault = none ∧ (2 ≤ s.prN.toNat → t.obuf = syms) ∧ (s.prN.toNat = 1 → t.obuf = []) := by
  obtain ⟨t, hdec, hres⟩ := decodeBuffer_of_encoded (s := s.takeAction []) hpv hp hn hb hbs hobuf
  exact exists_runSteps_succ (step_issue hf hhost hdec) ⟨t, rfl, commandBody_fault (i := .decode) hdec hf, hres⟩

/-- The round trip from `LOAD` on, under any parameters `DERIVE n` can have left. -/
theorem runSteps_roundTrip {s : State} {n : Nat} {syms : List Byte} (hf : s.fault = none) (hpv : s.pv = true)
    (hp : s.ParamsOk) (hN : s.prN.toNat = n) (hhost : s.host = [.load syms, issue .encode, .xfer, issue .decode])
    (hn : ∀ sym ∈ syms, sym.toNat < n) (hload : admits s.caps.ibuf syms.length = true)
    (hbs : admits s.caps.bs (syms.flatMap s.codeword).length = true)
    (hser : admits s.caps.obuf (serialized (syms.flatMap s.codeword)).length = true)
    (hxfer : admits s.caps.ibuf (serialized (syms.flatMap s.codeword)).length = true)
    (hobuf : 2 ≤ n → admits s.caps.obuf syms.length = true) :
    ∃ t, runSteps 4 s = .next t ∧ t.fault = none ∧ (2 ≤ n → t.obuf = syms) ∧ (n = 1 → t.obuf = []) := by
  subst hN
  obtain ⟨code, len, rv, hencode⟩ :=
    step_encode (s := (s.takeAction _).writeIbuf syms) hf rfl hpv hp hn hbs hser
  exact exists_runSteps_succ (step_load hf hhost hload) (exists_runSteps_succ hencode
    (exists_runSteps_succ (step_xfer hf rfl hxfer) (runSteps_decode_of_encoded hf rfl hpv hp hn rfl hbs hobuf)))

/-- Settles O52: `DERIVE` leaves the parameters, and `DECODE` reads the codewords `ENCODE` wrote. -/
theorem roundTrip : Obligations.RoundTrip := by
  intro s u n syms hf h1 h2 hn hderive hload hbs hser hxfer hobuf
  obtain rfl := Host.Outcome.next.inj ((exec_derive hf h1 h2).symm.trans hderive)
  rw [Nat.add_comm, ← ceilDiv8_eq, ← serialized_length] at hser hxfer
  have hN : (BitVec.ofNat 9 n.toNat).toNat = n.toNat := by rw [BitVec.ofNat_toNat, BitVec.setWidth_eq]
  refine exists_runSteps_succ (step_derive hf rfl h1 h2) (runSteps_roundTrip (by exact hf) rfl ?_ hN rfl hn hload hbs
    hser hxfer hobuf)
  exact writeParams_paramsOk _ h1 h2

end Sys2Proof.Machine
end

section
/-!
Faults (60_exceptions): only reset clears one (O10), and the word and the valid bits are checked before the operand and
the buffer (O56).
-/

namespace Sys2Proof.Machine

theorem step_reset {s : State} {rest : List HostAction} (hhost : s.host = .reset :: rest) :
    step s = .next (applyReset (s.takeAction rest)) :=
  step_cons hhost

/-- A host action other than reset keeps the fault of a faulted state (60_exceptions R167). -/
theorem step_faulted {s : State} {c : Cause} {a : HostAction} {rest : List HostAction} (hf : s.fault = some c)
    (hhost : s.host = a :: rest) (ha : a ≠ .reset) : step s = .next (takeFault c (s.takeAction rest)) :=
  (step_cons hhost).trans (perform_faulted (s := s.takeAction rest) hf ha)

/-- Settles O10: reset acts on a faulted state, every other action takes its fault again. -/
theorem onlyResetClearsTheFault : Obligations.OnlyResetClearsTheFault := by
  intro s c a rest hf hhost
  refine ⟨?reset, fun ha => ?other⟩
  case reset => rintro rfl; exact ⟨_, step_reset hhost, applyReset_fault _⟩
  case other => exact ⟨_, step_faulted hf hhost ha, takeFault_fault _ _⟩

/-- A command whose pseudocode raises `c` leaves a state with that fault (60_exceptions R166). -/
theorem exec_faults {i : Instr} {s : State} {c : Cause} (hf : s.fault = none) (h : commandBody i s = .raised c) :
    ∃ t, exec i s = .next t ∧ t.fault = some c :=
  ⟨takeFault c s, (exec_eq i s).trans (runCommand_raised hf h), takeFault_fault c s⟩

/-- Settles O56: each of the four commands tests `PV` before all else, and `0x20000100` is `ENCSYM` with the
must-be-zero bit 8 set, a word that spells no command. -/
theorem faultsComeInTheirOrder : Obligations.FaultsComeInTheirOrder := by
  intro s hf hpv
  refine ⟨fun sym => ?encsym, ?decsym, ?encode, ?decode, fun rest hhost => ?word⟩
  case encsym => exact ⟨_, exec_encsym_noParams hf hpv, takeFault_fault _ _⟩
  case decsym => exact exec_faults hf (decodeSymbol_noParams hpv)
  case encode => exact exec_faults hf (encodeBuffer_noParams hpv)
  case decode => exact exec_faults hf (decodeBuffer_noParams hpv)
  case word => exact reservedWordsAreIllegal s _ rest hf hhost (.inr (.inr (.inr (.inl (by decide)))))

end Sys2Proof.Machine
end

section
/-!
Termination and the host's two steps without a command (70_reset): every command ends (O55), reset leaves the reset
state (O9), and the core waits for the host (O11). A command ends when its pseudocode is not `endless`; of all
pseudocode only `DECODE`'s loop can be, and each of its iterations reads at least `PR.M` bits.
-/

namespace Sys2Proof.Machine

theorem deriveParams_not_endless (n : AlphabetSize) (s : State) : deriveParams n s ≠ .endless := by
  rw [deriveParams_eq]; split <;> simp

theorem packImmediate_not_endless (code : CodeWord) (len : LengthField) (s : State) :
    packImmediate code len s ≠ .endless := by
  rw [packImmediate_eq]; split
  · simp
  · exact append_not_endless _ _ _

/-- The loop of `ENCODE` is counted, and nothing else of it repeats (44_composite_operations R130). -/
theorem encodeBuffer_not_endless (s : State) : encodeBuffer s ≠ .endless := by
  intro h
  cases hpv : s.pv with
  | false => rw [encodeBuffer_noParams hpv] at h; cases h
  | true =>
    rw [encodeBuffer_eq hpv, Result.andThen_eq_endless] at h
    obtain hloop | ⟨u, -, hser⟩ := h
    · exact encodeLoop_not_endless _ _ _ hloop
    · exact serialize_not_endless _ hser

/-- `DECODE` starts its loop at bit 0 with more iterations allowed than there are bits, and with `PR.M ≥ 1` each
iteration reads one bit or more (70_reset R191). -/
theorem decodeBuffer_not_endless {s : State} (hm : s.pv = true → 1 ≤ s.prM.toNat) : decodeBuffer s ≠ .endless := by
  intro h
  cases hpv : s.pv with
  | false => rw [decodeBuffer_noParams hpv] at h; cases h
  | true =>
    cases hdes : deserialize s with
    | endless => exact deserialize_not_endless s hdes
    | raised c =>
      rw [decodeBuffer, requireParams, if_pos hpv, hdes, Result.raised_andThen] at h
      cases h
    | done t =>
      rw [decodeBuffer_of_deserialize hpv hdes] at h
      obtain ⟨header, payload, -, -, -, -, rfl⟩ := deserialize_done hdes
      refine decodeLoop_not_endless
        (s := ((s.writeBs (deserialized header.toNat payload)).writeCur 0).writeObuf []) (hm hpv) (Nat.zero_le _) ?_ h
      simp [decodeFuel]

theorem commandBody_not_endless {i : Instr} {s : State} (hm : i = .decode → s.pv = true → 1 ≤ s.prM.toNat) :
    commandBody i s ≠ .endless := by
  cases i with
  | derive n => exact deriveParams_not_endless n s
  | encsym sym => exact encodeSymbol_not_endless none sym s
  | bsclr => exact Result.noConfusion
  | pack => exact packPair_not_endless s
  | packi code len => exact packImmediate_not_endless code len s
  | serialize => exact serialize_not_endless s
  | deserialize => exact deserialize_not_endless s
  | decsym => exact decodeSymbol_not_endless s
  | encode => exact encodeBuffer_not_endless s
  | decode => exact decodeBuffer_not_endless (hm rfl)

/-- Pseudocode that ends, in a state without fault, leaves a next state: its own, or the one of the cause it raises. -/
theorem exists_runCommand_next {s : State} {body : State → Result} (hf : s.fault = none) (h : body s ≠ .endless) :
    ∃ t, runCommand body s = .next t := by
  cases hbody : body s with
  | done t => exact ⟨t, runCommand_done hf hbody⟩
  | raised c => exact ⟨takeFault c s, runCommand_raised hf hbody⟩
  | endless => exact absurd hbody h

/-- Settles O55: no command's pseudocode is endless, `DECODE`'s by the bits each iteration of its loop reads. -/
theorem everyCommandEnds : Obligations.EveryCommandEnds := by
  intro i s hf hm
  rw [exec_eq]
  exact exists_runCommand_next hf (commandBody_not_endless hm)

/-- Settles O9: no fault and no other piece of the core's state is looked at before the reset. -/
theorem resetMayBeAppliedInAnyState : Obligations.ResetMayBeAppliedInAnyState := by
  intro s rest hhost
  have hreset : applyReset (s.takeAction rest) = { State.resetWith s.caps with host := rest, draws := s.draws } := rfl
  rw [step_reset hhost, hreset]

/-- Settles O11: a step without a host action is the idle one. -/
theorem coreWaitsForTheHost : Obligations.CoreWaitsForTheHost :=
  fun _ hhost => step_nil hhost

end Sys2Proof.Machine
end
